-- ==== Sys2Proof/Word.lean ====
section
/-!
DEFINITION. The word types: a framebuffer byte, a request word, a 2-wire device address and a line level
(00_scope.md R11, R14; 30_encoding.md R80).
-/

namespace Sys2Proof

/-- One byte: a framebuffer element, a command byte or a data byte (R14). -/
abbrev Byte := BitVec 8

/-- One request word (R80): 64 bits, bit 63 the most significant. -/
abbrev Request := BitVec 64

/-- A 7-bit device address of the 2-wire bus (R25). -/
abbrev DevAddr := BitVec 7

/-- The level of a line (R150): `false` is the spec's 0 (low), `true` its 1 (high). -/
abbrev Level := Bool

end Sys2Proof
end

