-- ==== Sys2Proof/Config.lean ====
section
/-!
DEFINITION. The configuration record `Cfg` (00_scope.md R7 to R10): everything fixed at construction. No operation
reads or writes anything here but by name, so a statement over every `Cfg` is a statement over every panel, link and
set of device codes.
-/

namespace Sys2Proof

/-- Which link the block drives (R9). -/
inductive Variant where
  | fourWire
  | twoWire
deriving DecidableEq, Repr

/-- The three levels of the reset pulse, in order (R9 `RST_LEVELS`, R192). -/
structure RstLevels where
  l1 : Level
  l2 : Level
  l3 : Level
deriving DecidableEq, Repr

/-- The device-facing byte values (R10), one named byte each: the control bytes (R95), the command codes and their
fixed arguments (R96 to R99), and DIM's undimmed contrasts (R97). -/
structure DeviceCodes where
  ctrlCmd : Byte
  ctrlData : Byte
  opClockDiv : Byte
  argClockDiv : Byte
  opMultiplex : Byte
  opOffset : Byte
  opStartLine : Byte
  opChargePump : Byte
  argChargePumpExt : Byte
  argChargePumpInt : Byte
  opMemMode : Byte
  argMemMode : Byte
  opSegRemap : Byte
  opComScan : Byte
  opComPins : Byte
  opContrast : Byte
  opPrecharge : Byte
  argPrechargeExt : Byte
  argPrechargeInt : Byte
  opVcomDetect : Byte
  argVcomDetect : Byte
  opResume : Byte
  opNormal : Byte
  opInverse : Byte
  opScrollOff : Byte
  opScrollOn : Byte
  opDisplayOn : Byte
  opColAddr : Byte
  opPageAddr : Byte
  opHScrollR : Byte
  opHScrollL : Byte
  opDScrollR : Byte
  opDScrollL : Byte
  opVScrollArea : Byte
  argScrollPad : Byte
  argHScrollT1 : Byte
  argHScrollT2 : Byte
  argDScrollVOff : Byte
  dimOffExt : Byte
  dimOffInt : Byte
deriving DecidableEq, Repr

/-- The configuration record: the device profile (R7), the transport configuration (R9) and the device-facing bytes
(R10). The framebuffer's length is no field: it is derived (R8). -/
structure Cfg where
  width : Nat
  height : Nat
  comPins : Byte
  contrastInt : Byte
  contrastExt : Byte
  variant : Variant
  hwAccel : Bool
  rstWired : Bool
  rateBoost : Bool
  rstLevels : RstLevels
  codes : DeviceCodes
deriving DecidableEq, Repr

/-- The framebuffer length `FB_LEN = WIDTH * HEIGHT / 8` (R8). -/
def Cfg.fbLen (c : Cfg) : Nat := c.width * c.height / 8

/-- A configuration that construction accepts: the bounds of R8, and the one constraint R95 puts on the control bytes.
DEDUCED (log entry 13) that the latter is part of legality. Safe: it excludes configurations. -/
abbrev Cfg.Legal (c : Cfg) : Prop :=
  1 ≤ c.width ∧ c.width ≤ 256 ∧ 8 ≤ c.height ∧ c.height ≤ 248 ∧ c.height % 8 = 0 ∧
    c.codes.ctrlCmd ≠ c.codes.ctrlData

/-- The default device bytes (93_implementation_defined.md G1 to G5). PRESUMED: the spec marks every one as general
knowledge, not in source (log entry 2). Unsafe only for a claim that names a value. -/
def DeviceCodes.default : DeviceCodes where
  ctrlCmd := 0x00
  ctrlData := 0x40
  opClockDiv := 0xD5
  argClockDiv := 0x80
  opMultiplex := 0xA8
  opOffset := 0xD3
  opStartLine := 0x40
  opChargePump := 0x8D
  argChargePumpExt := 0x10
  argChargePumpInt := 0x14
  opMemMode := 0x20
  argMemMode := 0x00
  opSegRemap := 0xA1
  opComScan := 0xC8
  opComPins := 0xDA
  opContrast := 0x81
  opPrecharge := 0xD9
  argPrechargeExt := 0x22
  argPrechargeInt := 0xF1
  opVcomDetect := 0xDB
  argVcomDetect := 0x40
  opResume := 0xA4
  opNormal := 0xA6
  opInverse := 0xA7
  opScrollOff := 0x2E
  opScrollOn := 0x2F
  opDisplayOn := 0xAF
  opColAddr := 0x21
  opPageAddr := 0x22
  opHScrollR := 0x26
  opHScrollL := 0x27
  opDScrollR := 0x29
  opDScrollL := 0x2A
  opVScrollArea := 0xA3
  argScrollPad := 0x00
  argHScrollT1 := 0x00
  argHScrollT2 := 0xFF
  argDScrollVOff := 0x01
  dimOffExt := 0x9F
  dimOffInt := 0xCF

/-- The configuration `State.reset` is built with: that of program P1 (95_test_vectors.md): 128 by 64 panel (G6), 2-wire
link, no reset line, rate boost on (R9's default), reset levels `(1,0,1)` (R9's default). `HWACCEL` is read by the
4-wire link only. DESIGN CHOICE (log entry 1): the spec leaves every one of these open. -/
def Cfg.default : Cfg where
  width := 128
  height := 64
  comPins := 0x12
  contrastInt := 0xCF
  contrastExt := 0x9F
  variant := .twoWire
  hwAccel := false
  rstWired := false
  rateBoost := true
  rstLevels := ⟨true, false, true⟩
  codes := DeviceCodes.default

end Sys2Proof
end

