-- ==== Sys2Proof/Syntax.lean ====
section
/-!
DEFINITION. The requests as syntax: one constructor of `Instr` per row of spec/opcode_table.json (30_encoding.md R83),
with its operands as structured data (R26, R81, R84).
-/

namespace Sys2Proof

/-- A colour operand (R16, R84): a command to a bit, not a value kept in it (R53). -/
inductive Colour where
  | clear
  | set
  | invert
deriving DecidableEq, Repr

/-- A rotation state 0 to 3 (R16, R84): a multiple of 90 degrees clockwise. -/
inductive Rotation where
  | r0
  | r1
  | r2
  | r3
deriving DecidableEq, Repr

/-- A supply mode (R16, R84): the internal charge pump or an external supply. -/
inductive Supply where
  | int
  | ext
deriving DecidableEq, Repr

/-- One host request. Coordinates and lengths are unbounded integers, as R14, R85 and R140 compute with them; that a
request word can carry them in 16 bits is `Instr.WellFormed` (log entry 16). Bands are unsigned bytes, the address 7
bits, and the one-bit operands booleans (R85). -/
inductive Instr where
  | setPixel (rot : Rotation) (x y : Int) (col : Colour)
  | hline (rot : Rotation) (x y len : Int) (col : Colour)
  | vline (rot : Rotation) (x y len : Int) (col : Colour)
  | begin (vcc : Supply) (rst : Bool) (addr : DevAddr)
  | invert (flag : Bool)
  | dim (flag : Bool)
  | scrollR (first last : Byte)
  | scrollL (first last : Byte)
  | scrollDR (first last : Byte)
  | scrollDL (first last : Byte)
  | stopScroll
  | flush
  | clear
deriving DecidableEq, Repr

end Sys2Proof
end

