-- ==== Sys2Proof/WellFormed.lean ====
section
/-!
DEFINITION. Which requests a request word can carry: `x`, `y` and `len` are 16-bit two's complement (30_encoding.md R81,
R85). Every other operand is in range by its type.
-/

namespace Sys2Proof

/-- In the range of a 16-bit two's complement field, -32768 to 32767 (R14 `sext_16`, R89). -/
abbrev Fits16 (v : Int) : Prop := -32768 ≤ v ∧ v ≤ 32767

/-- Every operand is in the range its field holds (R81). -/
def Instr.wf : Instr → Bool
  | .setPixel _ x y _ => decide (Fits16 x) && decide (Fits16 y)
  | .hline _ x y len _ => decide (Fits16 x) && decide (Fits16 y) && decide (Fits16 len)
  | .vline _ x y len _ => decide (Fits16 x) && decide (Fits16 y) && decide (Fits16 len)
  | .begin _ _ _ => true
  | .invert _ => true
  | .dim _ => true
  | .scrollR _ _ => true
  | .scrollL _ _ => true
  | .scrollDR _ _ => true
  | .scrollDL _ _ => true
  | .stopScroll => true
  | .flush => true
  | .clear => true

/-- `Instr.wf` as a proposition. -/
abbrev Instr.WellFormed (i : Instr) : Prop := i.wf = true

end Sys2Proof
end

