-- ==== Sys2Proof/Decode.lean ====
section
/-!
DEFINITION. Decoding a request word and, after it, encoding a request (30_encoding.md Part A: R80 to R88), and the small
codes (R84). Decoding is total: every one of the 2^64 words is one of the thirteen requests or reserved, by name.
-/

namespace Sys2Proof

/-- Why a word is reserved (R86), in the order R88 looks: the opcode, the must-be-zero bits, the colour. -/
inductive Reserved where
  /-- `op` is 0x0, 0xE or 0xF. -/
  | opcode
  /-- A bit that the word's format (R82) requires to be zero is one. -/
  | mustBeZero
  /-- Format P with `col = 3`. -/
  | colour
deriving DecidableEq, Repr

/-! ## Small codes (R84) -/

def Colour.code : Colour → BitVec 2
  | .clear => 0
  | .set => 1
  | .invert => 2

/-- The colour of a code; 3 is reserved (R84). -/
def Colour.ofCode (v : BitVec 2) : Option Colour :=
  if v = 0 then some .clear
  else if v = 1 then some .set
  else if v = 2 then some .invert
  else none

def Rotation.code : Rotation → BitVec 2
  | .r0 => 0
  | .r1 => 1
  | .r2 => 2
  | .r3 => 3

/-- All four rotation codes are legal (R84). -/
def Rotation.ofCode (v : BitVec 2) : Rotation :=
  if v = 0 then .r0
  else if v = 1 then .r1
  else if v = 2 then .r2
  else .r3

def Supply.code : Supply → BitVec 1
  | .int => 0
  | .ext => 1

def Supply.ofCode (v : BitVec 1) : Supply :=
  if v = 0 then .int else .ext

/-! ## Fields (R81), as R85 reads them -/

def opField (w : Request) : BitVec 4 := w.extractLsb' 60 4
def rotField (w : Request) : Rotation := Rotation.ofCode (w.extractLsb' 58 2)
def colField (w : Request) : Option Colour := Colour.ofCode (w.extractLsb' 56 2)
def xField (w : Request) : Int := (w.extractLsb' 32 16).toInt
def yField (w : Request) : Int := (w.extractLsb' 16 16).toInt
def lenField (w : Request) : Int := (w.extractLsb' 0 16).toInt
def firstField (w : Request) : Byte := w.extractLsb' 8 8
def lastField (w : Request) : Byte := w.extractLsb' 0 8
def vccField (w : Request) : Supply := Supply.ofCode (w.extractLsb' 8 1)
def rstField (w : Request) : Bool := w.getLsbD 7
def addrField (w : Request) : DevAddr := w.extractLsb' 0 7
def flagField (w : Request) : Bool := w.getLsbD 0

/-! ## Must-be-zero bits (R82): the bits of a word that its format's row does not name -/

def zeroP : Request := 0x00FF000000000000
def zeroPNoLen : Request := 0x00FF00000000FFFF
def zeroB : Request := 0x0FFFFFFFFFFFFE00
def zeroF : Request := 0x0FFFFFFFFFFFFFFE
def zeroS : Request := 0x0FFFFFFFFFFF0000
def zeroN : Request := 0x0FFFFFFFFFFFFFFF

/-- `i` if every bit of `zero` is zero in `w`, else reserved (R86). -/
def checkZero (w zero : Request) (i : Instr) : Except Reserved Instr :=
  if w &&& zero = 0 then .ok i else .error .mustBeZero

/-- Format P: the must-be-zero bits, then the colour (R86). -/
def decodeP (w zero : Request) (mk : Colour → Instr) : Except Reserved Instr :=
  if w &&& zero = 0 then
    match colField w with
    | some c => .ok (mk c)
    | none => .error .colour
  else .error .mustBeZero

/-- The decode procedure (R88) over the opcodes of R83. -/
def decode (w : Request) : Except Reserved Instr :=
  match (opField w).toNat with
  | 0x1 => decodeP w zeroPNoLen (.setPixel (rotField w) (xField w) (yField w))
  | 0x2 => decodeP w zeroP (.hline (rotField w) (xField w) (yField w) (lenField w))
  | 0x3 => decodeP w zeroP (.vline (rotField w) (xField w) (yField w) (lenField w))
  | 0x4 => checkZero w zeroB (.begin (vccField w) (rstField w) (addrField w))
  | 0x5 => checkZero w zeroF (.invert (flagField w))
  | 0x6 => checkZero w zeroF (.dim (flagField w))
  | 0x7 => checkZero w zeroS (.scrollR (firstField w) (lastField w))
  | 0x8 => checkZero w zeroS (.scrollL (firstField w) (lastField w))
  | 0x9 => checkZero w zeroS (.scrollDR (firstField w) (lastField w))
  | 0xA => checkZero w zeroS (.scrollDL (firstField w) (lastField w))
  | 0xB => checkZero w zeroN .stopScroll
  | 0xC => checkZero w zeroN .flush
  | 0xD => checkZero w zeroN .clear
  | _ => .error .opcode

/-! ## Encoding (R81 to R83) -/

/-- A word from its fields: op, rot, col, eight zero bits, x, y and the low 16 bits (R82). -/
def packWord (op : BitVec 4) (rot col : BitVec 2) (x y low : BitVec 16) : Request :=
  op ++ rot ++ col ++ 0#8 ++ x ++ y ++ low

def encodeP (op : BitVec 4) (rot : Rotation) (x y len : Int) (col : Colour) : Request :=
  packWord op rot.code col.code (BitVec.ofInt 16 x) (BitVec.ofInt 16 y) (BitVec.ofInt 16 len)

def encodeLow (op : BitVec 4) (low : BitVec 16) : Request :=
  packWord op 0 0 0 0 low

def encodeB (op : BitVec 4) (vcc : Supply) (rst : Bool) (addr : DevAddr) : Request :=
  encodeLow op (0#7 ++ vcc.code ++ BitVec.ofBool rst ++ addr)

def encodeF (op : BitVec 4) (flag : Bool) : Request :=
  encodeLow op (0#15 ++ BitVec.ofBool flag)

def encodeS (op : BitVec 4) (first last : Byte) : Request :=
  encodeLow op (first ++ last)

def encode : Instr → Request
  | .setPixel rot x y col => encodeP 0x1 rot x y 0 col
  | .hline rot x y len col => encodeP 0x2 rot x y len col
  | .vline rot x y len col => encodeP 0x3 rot x y len col
  | .begin vcc rst addr => encodeB 0x4 vcc rst addr
  | .invert flag => encodeF 0x5 flag
  | .dim flag => encodeF 0x6 flag
  | .scrollR first last => encodeS 0x7 first last
  | .scrollL first last => encodeS 0x8 first last
  | .scrollDR first last => encodeS 0x9 first last
  | .scrollDL first last => encodeS 0xA first last
  | .stopScroll => encodeLow 0xB 0
  | .flush => encodeLow 0xC 0
  | .clear => encodeLow 0xD 0

/-! ## The host's view of a word -/

/-- The request word of a bit string of `nbits` bits numbered as the opcode table numbers them (bit 0 the least
significant, R80, R92), every bit above `nbits` zero. -/
def tableWord (nbits w : Nat) : Request := BitVec.ofNat 64 (w % 2 ^ nbits)

/-- The request the decoder reads from such a word; none where the word is reserved, or longer than one request. -/
def decodeTableWord (nbits w : Nat) : Option Instr :=
  if nbits ≤ 64 then (decode (tableWord nbits w)).toOption else none

end Sys2Proof
end

