-- ==== Sys2Proof/Machine/State.lean ====
section
/-!
DEFINITION. The machine's state as plain data (10_state.md R20), the reasons a step can stop, and the state right after
reset (10_state.md R33). INVENTORY.md's '## State' lists every field with its rule and reset value.
-/

namespace Sys2Proof.Machine

/-- The controller phase (R22, R240). -/
inductive Phase where
  | uninitialized
  | initializing
  | ready
deriving DecidableEq, Repr

/-- The lines the block drives (R28, R150). -/
inductive Line where
  | cs
  | dc
  | clk
  | mosi
  | rst
deriving DecidableEq, Repr

/-- One link event: one call from the block to a collaborator (R150). -/
inductive LinkEvent where
  | open4
  | open2 (a : DevAddr)
  | pin (l : Line) (v : Level)
  | shift (b : Byte)
  | start (a : DevAddr)
  | byte (b : Byte)
  | stop
  | rateMax
  | rateRestore
  | delay (ms : Nat)
deriving DecidableEq, Repr

/-- The last level written to each line (R28 `PINS`). -/
structure Pins where
  cs : Level
  dc : Level
  clk : Level
  mosi : Level
  rst : Level
deriving DecidableEq, Repr

/-- `RATE_SAVED` (R29): empty, or holding the prior rate. The number itself is kept by the bus engine and is opaque to
the block, so no number stands here. DESIGN CHOICE (log entry 10), safe. -/
inductive SavedRate where
  | empty
  | held
deriving DecidableEq, Repr

/-- The framebuffer as a sparse list of (index, byte) pairs; its canonical form is `Memory.Wf` (Machine/Ops.lean). -/
abbrev Memory := List Host.Cell

/-- The whole state of the block (R20), with the configuration and the request list it runs, and the environment's
freedom to stall (R268). -/
structure State where
  /-- `Cfg` (R7 to R10): fixed for the life of the machine. -/
  cfg : Cfg
  /-- `PROG` (R27): the host's request list, a parameter of the run. -/
  prog : List Request
  /-- `pc` (R27): the index of the next request. -/
  pc : Nat
  /-- `FB` (R21). -/
  fb : Memory
  /-- `PHASE` (R22). -/
  phase : Phase
  /-- `SUPPLY` (R23). -/
  supply : Supply
  /-- `ADDR` (R25). -/
  addr : DevAddr
  /-- `PINS` (R28). -/
  pins : Pins
  /-- `RATE_SAVED` (R29). -/
  rateSaved : SavedRate
  /-- `TRACE` (R30), in the order emitted. -/
  trace : List LinkEvent
  /-- The MODEL's own: how many further stallable events the collaborators accept before they stall for ever; none is
  the premise BusNeverStalls (R268). DESIGN CHOICE (log entry 7). -/
  busAccepts : Option Nat
  /-- The MODEL's own: the request at `pc` hangs on an event that never completes (R268). -/
  stalled : Bool
deriving DecidableEq, Repr

/-- Why a step can fault. The block itself raises no exception (R230). -/
inductive Fault where
  /-- Raised by `memRead` and `memWrite` (Machine/Ops.lean) for an index outside 0 to FB_LEN-1, which R15 excludes and
  R60 says no rule forms. Safe: the machine stops, and no legal configuration reaches it (log entry 12). -/
  | indexOutsideFramebuffer
deriving DecidableEq, Repr

/-- Why a step can be refused. -/
inductive Refusal where
  /-- Raised by `exec` for a request that has no meaning yet. Safe: the machine stops. -/
  | notModelled (mnemonic : String)
  /-- Raised by `step` for a reserved request word (R86, R236). Safe: the machine stops, as the spec directs (D8). -/
  | reservedRequest (why : Reserved)
  /-- Raised by the meaning of BEGIN when PHASE is not Uninitialized (R190, R191, R236). Safe: the spec directs it (D13). -/
  | beginNotUninitialized
  /-- Raised by the meanings of the Ready-only requests when PHASE is not Ready (R190, R236): the source calls them
  "otherwise undefined". Safe: the spec directs it (D13). -/
  | notReady
deriving DecidableEq, Repr

/-- The machine right after reset (R33, R260): PHASE Uninitialized, RATE_SAVED empty, TRACE empty, pc 0 are the spec's.
FB listing nothing (every byte reads 0x00), SUPPLY, ADDR and PINS are values the spec leaves unspecified: DESIGN CHOICE,
unsafe (log entries 3 and 4); `State.IsReset` (Safety.lean) is the spec's whole set of reset states. The configuration is
log entry 1, the empty PROG log entry 5, the bus that never stalls log entry 7. -/
def State.reset : State where
  cfg := Cfg.default
  prog := []
  pc := 0
  fb := []
  phase := .uninitialized
  supply := .int
  addr := 0
  pins := ⟨false, false, false, false, false⟩
  rateSaved := .empty
  trace := []
  busAccepts := none
  stalled := false

end Sys2Proof.Machine
end

