-- ==== Sys2Proof/Machine/Ops.lean ====
section
/-!
DEFINITION. The named operations over the state: the framebuffer memory (20_memory.md R50 to R61), link events and the
lines they drive (41_transport.md R150, 10_state.md R28 to R30), the bus that may stall (70_reset_and_hazards.md R268),
the request index and the fetch of a request (10_state.md R27), and construction (00_scope.md R8).

TAKING AN EXCEPTION has no operation here because the block has none: it raises no exception (60_exceptions.md R230), has
no interrupt (R234), no trap entry (R237) and no trap return (R238).
-/

namespace Sys2Proof.Machine

/-! ## The framebuffer memory -/

/-- What a framebuffer byte that nothing has written reads as. The spec leaves the reset content of FB unspecified (R33,
D10). DESIGN CHOICE (log entry 3): 0x00. Unsafe: hardware may hold any byte there. -/
def Memory.unlisted : Byte := 0x00

/-- The canonical form: indices strictly rising, and no entry equal to what an unlisted index reads as. -/
abbrev Memory.Wf (m : Memory) : Prop :=
  m.Pairwise (fun a b => a.1 < b.1) ∧ ∀ e ∈ m, e.2 ≠ Memory.unlisted

/-- Every listed index is below `n`. -/
abbrev Memory.Within (m : Memory) (n : Nat) : Prop := ∀ e ∈ m, e.1 < n

def Memory.read : Memory → Nat → Byte
  | [], _ => Memory.unlisted
  | (b, v) :: m, a => if a = b then v else Memory.read m a

/-- An entry in front of `m`, unless it says what an unlisted index says. -/
def Memory.cons (a : Nat) (v : Byte) (m : Memory) : Memory :=
  if v = Memory.unlisted then m else (a, v) :: m

/-- Write one byte, keeping the canonical form. -/
def Memory.write : Memory → Nat → Byte → Memory
  | [], a, v => Memory.cons a v []
  | (b, u) :: m, a, v =>
    if a < b then Memory.cons a v ((b, u) :: m)
    else if a = b then Memory.cons a v m
    else (b, u) :: Memory.write m a v

/-- The memory that holds the first `n` bytes of `bs` (0x00 past its end). -/
def Memory.ofBytes (n : Nat) (bs : List Byte) : Memory :=
  (List.range n).foldl (fun m i => m.write i (bs.getD i 0x00)) []

/-- `MemRead(i, 1)` (R15): byte `i` of the framebuffer; an index outside it faults (log entry 12). -/
def memRead (i : Int) (s : State) : Except Fault Byte :=
  if 0 ≤ i ∧ i < s.cfg.fbLen then .ok (s.fb.read i.toNat) else .error .indexOutsideFramebuffer

def State.withFb (m : Memory) (s : State) : State := { s with fb := m }

/-- `MemWrite(i, 1, v)` (R15): the one framebuffer write there is (R56). -/
def memWrite (i : Int) (v : Byte) (s : State) : Except Fault State :=
  if 0 ≤ i ∧ i < s.cfg.fbLen then .ok (s.withFb (s.fb.write i.toNat v))
  else .error .indexOutsideFramebuffer

/-- The whole framebuffer in ascending index order, as FLUSH reads it (R54(b), R201). -/
def State.fbBytes (s : State) : List Byte := (List.range s.cfg.fbLen).map s.fb.read

/-- Zero every byte in place (R202). -/
def zeroFill (n : Nat) (m : Memory) : Memory :=
  (List.range n).foldl (fun m i => m.write i 0x00) m

/-! ## Lines and link events -/

def Pins.write (p : Pins) (l : Line) (v : Level) : Pins :=
  match l with
  | .cs => { p with cs := v }
  | .dc => { p with dc := v }
  | .clk => { p with clk := v }
  | .mosi => { p with mosi := v }
  | .rst => { p with rst := v }

def Pins.level (p : Pins) (l : Line) : Level :=
  match l with
  | .cs => p.cs
  | .dc => p.dc
  | .clk => p.clk
  | .mosi => p.mosi
  | .rst => p.rst

/-- PINS after an event: only a `Pin` event writes a line (R28). `Open4` writes none (R152, log entry 11). -/
def Pins.after (p : Pins) (e : LinkEvent) : Pins :=
  match e with
  | .pin l v => p.write l v
  | .open4 | .open2 _ | .shift _ | .start _ | .byte _ | .stop | .rateMax | .rateRestore | .delay _ => p

/-- RATE_SAVED after an event: `RateMax` remembers the prior rate, `RateRestore` gives it back (R29, R150). -/
def SavedRate.after (r : SavedRate) (e : LinkEvent) : SavedRate :=
  match e with
  | .rateMax => .held
  | .rateRestore => .empty
  | .open4 | .open2 _ | .pin _ _ | .shift _ | .start _ | .byte _ | .stop | .delay _ => r

/-- The events that may fail to complete: R268's list. `Pin` cannot stall; `RateMax` and `RateRestore` are not in the
list (DEDUCED that they cannot stall either, log entry 9). -/
def LinkEvent.canStall : LinkEvent → Bool
  | .open4 | .open2 _ | .shift _ | .start _ | .byte _ | .stop | .delay _ => true
  | .pin _ _ | .rateMax | .rateRestore => false

/-- `emit(e)` of an event that completes (R15, R30): it joins the end of TRACE, and writes what it writes. -/
def State.record (e : LinkEvent) (s : State) : State :=
  { s with trace := s.trace ++ [e], pins := s.pins.after e, rateSaved := s.rateSaved.after e }

def State.withBus (n : Option Nat) (s : State) : State := { s with busAccepts := n }

def State.stall (s : State) : State := { s with stalled := true }

/-- `emit(e)` on a bus that may stall (R268): a stallable event the collaborators no longer accept is never completed;
the machine hangs on it, and it does not join TRACE (log entries 7 and 8). A hanging machine emits nothing more. -/
def emit (s : State) (e : LinkEvent) : State :=
  if s.stalled then s
  else if e.canStall then
    match s.busAccepts with
    | none => s.record e
    | some 0 => s.stall
    | some (n + 1) => (s.withBus (some n)).record e
  else s.record e

def emitAll (es : List LinkEvent) (s : State) : State := es.foldl emit s

/-! ## The request index and the fetch -/

/-- `pc <- pc + 1` (R27). -/
def State.advance (s : State) : State := { s with pc := s.pc + 1 }

/-- The end of a request that emits link events: `pc <- pc + 1`, unless it hangs (R268: "pc never advances"). -/
def State.finish (s : State) : State := if s.stalled then s else s.advance

/-- The next request the host issues, if there is one (R27). -/
def fetch (s : State) : Option Request := s.prog[s.pc]?

/-- `prog` with the word `w` at index `n`; a gap before it is filled with zero words, which are reserved (R86). -/
def placeRequest : List Request → Nat → Request → List Request
  | [], 0, w => [w]
  | [], n + 1, w => 0 :: placeRequest [] n w
  | _ :: rest, 0, w => w :: rest
  | v :: rest, n + 1, w => v :: placeRequest rest n w

/-! ## Phase, supply mode and address -/

/-- The start of BEGIN (R191): the phase moves and both operands are latched, before anything is sent. -/
def State.latch (vcc : Supply) (a : DevAddr) (s : State) : State :=
  { s with phase := .initializing, supply := vcc, addr := a }

/-- The end of BEGIN (R191): `PHASE <- Ready`, unless the request hangs (R268: "PHASE may stay Initializing"). -/
def State.becomeReady (s : State) : State := if s.stalled then s else { s with phase := .ready }

/-! ## Construction (R8, R33, R233) -/

/-- What the spec leaves unspecified at power-up (R33): the framebuffer's bytes, SUPPLY, ADDR and PINS, and the
environment's freedom to stall (R268). -/
structure PowerUp where
  bytes : List Byte
  supply : Supply
  addr : DevAddr
  pins : Pins
  busAccepts : Option Nat
deriving DecidableEq, Repr

/-- A machine right after power-up, for a configuration, the unspecified content and a request list. A configuration
that breaks R8 is rejected: no machine exists for it (R233). -/
def construct (c : Cfg) (u : PowerUp) (prog : List Request) : Option State :=
  if c.Legal then
    some { State.reset with
      cfg := c, prog := prog, fb := Memory.ofBytes c.fbLen u.bytes, supply := u.supply, addr := u.addr,
      pins := u.pins, busAccepts := u.busAccepts }
  else none

end Sys2Proof.Machine
end

