-- ==== Sys2Proof/Machine/Flags.lean ====
section
/-!
DEFINITION. The block has no flags and no condition codes (10_state.md R31), so no flag is computed anywhere. The only
mode-like state is PHASE (60_exceptions.md R240); this file holds its 2-bit code (30_encoding.md R84) and the phase guards
(42_controller_ops.md R190), which are the model's and the spec's documentation of what the source leaves undefined: the
block itself has no guard (R236, D13).
-/

namespace Sys2Proof.Machine

/-- The code R84 gives for a model that wants one; it stands on no port. -/
def Phase.code : Phase → BitVec 2
  | .uninitialized => 0
  | .initializing => 1
  | .ready => 2

/-- The guard of INVERT, DIM, the scrolls, STOPSCROLL and FLUSH (R190): outside Ready the request is refused. -/
def whenReady (s : State) (run : State → State) : Host.Outcome State Fault Refusal :=
  match s.phase with
  | .ready => .next (run s)
  | .uninitialized => .refused .notReady
  | .initializing => .refused .notReady

/-- The guard of BEGIN (R190, R191): outside Uninitialized the request is refused. -/
def whenUninitialized (s : State) (run : State → State) : Host.Outcome State Fault Refusal :=
  match s.phase with
  | .uninitialized => .next (run s)
  | .initializing => .refused .beginNotUninitialized
  | .ready => .refused .beginNotUninitialized

end Sys2Proof.Machine
end

