-- ==== Sys2Proof/Machine/Transport.lean ====
section
/-!
DEFINITION. The Transport (41_transport.md): the link events of opening, of one command byte and of one data burst, on
each of the two links. Each is a function of its arguments, the configuration and ADDR alone (R168).
-/

namespace Sys2Proof.Machine

/-! ## The 4-wire link -/

/-- `BitBang(b)` (R156): eight bits, most significant first, three events each. -/
def bitBang (b : Byte) : List LinkEvent :=
  [7, 6, 5, 4, 3, 2, 1, 0].flatMap fun j => [.pin .clk false, .pin .mosi (b.getLsbD j), .pin .clk true]

/-- `XferByte(b)` (R155, R157). -/
def xferByte (c : Cfg) (b : Byte) : List LinkEvent :=
  if c.hwAccel then [.shift b] else bitBang b

/-- `SendCommand_4W(b)` (R153). -/
def sendCommand4W (c : Cfg) (b : Byte) : List LinkEvent :=
  [.pin .dc false, .pin .cs false] ++ xferByte c b ++ [.pin .cs true]

/-- `SendData_4W(bs)` (R154): one chip-select assertion for the whole burst. -/
def sendData4W (c : Cfg) (bs : List Byte) : List LinkEvent :=
  [.pin .dc true, .pin .cs false] ++ bs.flatMap (xferByte c) ++ [.pin .cs true]

/-! ## The 2-wire link -/

/-- One bus transaction: start, a control byte, the payload, stop. -/
def transaction (a : DevAddr) (ctrl : Byte) (payload : List Byte) : List LinkEvent :=
  [.start a, .byte ctrl] ++ payload.map .byte ++ [.stop]

/-- `SendCommand_2W(b)` (R160): every command byte is its own transaction. -/
def sendCommand2W (c : Cfg) (a : DevAddr) (b : Byte) : List LinkEvent :=
  transaction a c.codes.ctrlCmd [b]

/-- The payloads of a burst's sub-transactions (R162): sub-transaction `k` carries bytes `16k` to `16k+15`, the last one
what is left. -/
def payloads (bs : List Byte) : List (List Byte) :=
  (List.range ((bs.length + 15) / 16)).map fun k => (bs.drop (16 * k)).take 16

/-- `SendData_2W(bs)` (R162), with the rate request around it (R166). -/
def sendData2W (c : Cfg) (a : DevAddr) (bs : List Byte) : List LinkEvent :=
  (if c.rateBoost then [.rateMax] else []) ++
    (payloads bs).flatMap (transaction a c.codes.ctrlData) ++
    (if c.rateBoost then [.rateRestore] else [])

/-! ## The interface (R151) -/

/-- `Open(a)` (R152). -/
def openLink (c : Cfg) (a : DevAddr) : List LinkEvent :=
  match c.variant with
  | .fourWire => [.open4]
  | .twoWire => [.open2 a]

/-- `SendCommand(b)`. -/
def sendCommand (c : Cfg) (a : DevAddr) (b : Byte) : List LinkEvent :=
  match c.variant with
  | .fourWire => sendCommand4W c b
  | .twoWire => sendCommand2W c a b

/-- `SendData(bs)`. -/
def sendData (c : Cfg) (a : DevAddr) (bs : List Byte) : List LinkEvent :=
  match c.variant with
  | .fourWire => sendData4W c bs
  | .twoWire => sendData2W c a bs

/-- `SendSeq(bs)` (R203): each byte through the Transport on its own. -/
def sendSeq (c : Cfg) (a : DevAddr) (bs : List Byte) : List LinkEvent :=
  bs.flatMap (sendCommand c a)

/-- `ResetPulse()` (R192): three levels, at least 1 ms after the first and at least 10 ms after the second. -/
def resetPulse (c : Cfg) : List LinkEvent :=
  [.pin .rst c.rstLevels.l1, .delay 1, .pin .rst c.rstLevels.l2, .delay 10, .pin .rst c.rstLevels.l3]

end Sys2Proof.Machine
end

