-- ==== Sys2Proof/Machine/Controller.lean ====
section
/-!
DEFINITION. The controller requests (42_controller_ops.md): BEGIN, INVERT, DIM, the four scroll starts, STOPSCROLL, FLUSH
and CLEAR.
-/

namespace Sys2Proof.Machine

/-- `E(a, b)` of R193: `a` for an external supply, else `b`. -/
def bySupply (s : Supply) (ext int : Byte) : Byte :=
  match s with
  | .ext => ext
  | .int => int

/-- A computed argument byte (R100): exact for every legal configuration. -/
def argByte (n : Nat) : Byte := BitVec.ofNat 8 n

/-! ## Command sequences -/

/-- `InitSeq(s)` (R193, R96): sixteen steps, 25 bytes. -/
def initSeq (c : Cfg) (s : Supply) : List Byte :=
  [c.codes.opClockDiv, c.codes.argClockDiv,
   c.codes.opMultiplex, argByte (c.height - 1),
   c.codes.opOffset, 0x00,
   c.codes.opStartLine,
   c.codes.opChargePump, bySupply s c.codes.argChargePumpExt c.codes.argChargePumpInt,
   c.codes.opMemMode, c.codes.argMemMode,
   c.codes.opSegRemap,
   c.codes.opComScan,
   c.codes.opComPins, c.comPins,
   c.codes.opContrast, bySupply s c.contrastExt c.contrastInt,
   c.codes.opPrecharge, bySupply s c.codes.argPrechargeExt c.codes.argPrechargeInt,
   c.codes.opVcomDetect, c.codes.argVcomDetect,
   c.codes.opResume,
   c.codes.opNormal,
   c.codes.opScrollOff,
   c.codes.opDisplayOn]

/-- The bytes of INVERT (R194, R97). -/
def invertSeq (c : Cfg) (flag : Bool) : List Byte :=
  [if flag then c.codes.opInverse else c.codes.opNormal]

/-- The bytes of DIM (R195, R97): the contrast is computed anew on every call. -/
def dimSeq (c : Cfg) (s : Supply) (flag : Bool) : List Byte :=
  [c.codes.opContrast, if flag then 0x00 else bySupply s c.codes.dimOffExt c.codes.dimOffInt]

/-- The eight bytes of a horizontal scroll start (R196, R197, R98). -/
def hScrollSeq (c : Cfg) (dir first last : Byte) : List Byte :=
  [dir, c.codes.argScrollPad, first, c.codes.argScrollPad, last, c.codes.argHScrollT1, c.codes.argHScrollT2,
   c.codes.opScrollOn]

/-- The ten bytes of a diagonal scroll start (R198, R199, R98). -/
def dScrollSeq (c : Cfg) (dir first last : Byte) : List Byte :=
  [c.codes.opVScrollArea, 0x00, argByte c.height, dir, c.codes.argScrollPad, first, c.codes.argScrollPad, last,
   c.codes.argDScrollVOff, c.codes.opScrollOn]

/-- The six window bytes of FLUSH (R201, R99). -/
def windowSeq (c : Cfg) : List Byte :=
  [c.codes.opColAddr, 0x00, argByte (c.width - 1), c.codes.opPageAddr, 0x00, argByte (c.height / 8 - 1)]

/-! ## Sending -/

/-- Send command bytes through the Transport to the latched address (R203). -/
def sendCommands (bs : List Byte) (s : State) : State := emitAll (sendSeq s.cfg s.addr bs) s

/-- Send one data burst (R151). -/
def sendBurst (bs : List Byte) (s : State) : State := emitAll (sendData s.cfg s.addr bs) s

/-! ## The requests -/

/-- BEGIN (R191): latch, pulse if wired and requested, open, initialise, Ready. -/
def execBegin (vcc : Supply) (rst : Bool) (a : DevAddr) (s : State) : Host.Outcome State Fault Refusal :=
  whenUninitialized s fun s =>
    let s := s.latch vcc a
    let s := if s.cfg.rstWired && rst then emitAll (resetPulse s.cfg) s else s
    let s := emitAll (openLink s.cfg s.addr) s
    let s := sendCommands (initSeq s.cfg s.supply) s
    s.becomeReady.finish

/-- INVERT (R194). -/
def execInvert (flag : Bool) (s : State) : Host.Outcome State Fault Refusal :=
  whenReady s fun s => (sendCommands (invertSeq s.cfg flag) s).finish

/-- DIM (R195). -/
def execDim (flag : Bool) (s : State) : Host.Outcome State Fault Refusal :=
  whenReady s fun s => (sendCommands (dimSeq s.cfg s.supply flag) s).finish

/-- SCROLLR (R196): the bands are sent as given, unchecked. -/
def execScrollR (first last : Byte) (s : State) : Host.Outcome State Fault Refusal :=
  whenReady s fun s => (sendCommands (hScrollSeq s.cfg s.cfg.codes.opHScrollR first last) s).finish

/-- SCROLLL (R197). -/
def execScrollL (first last : Byte) (s : State) : Host.Outcome State Fault Refusal :=
  whenReady s fun s => (sendCommands (hScrollSeq s.cfg s.cfg.codes.opHScrollL first last) s).finish

/-- SCROLLDR (R198). -/
def execScrollDR (first last : Byte) (s : State) : Host.Outcome State Fault Refusal :=
  whenReady s fun s => (sendCommands (dScrollSeq s.cfg s.cfg.codes.opDScrollR first last) s).finish

/-- SCROLLDL (R199). -/
def execScrollDL (first last : Byte) (s : State) : Host.Outcome State Fault Refusal :=
  whenReady s fun s => (sendCommands (dScrollSeq s.cfg s.cfg.codes.opDScrollL first last) s).finish

/-- STOPSCROLL (R200). -/
def execStopScroll (s : State) : Host.Outcome State Fault Refusal :=
  whenReady s fun s => (sendCommands [s.cfg.codes.opScrollOff] s).finish

/-- FLUSH (R201): the window, then the whole framebuffer as one burst. -/
def execFlush (s : State) : Host.Outcome State Fault Refusal :=
  whenReady s fun s => (sendBurst s.fbBytes (sendCommands (windowSeq s.cfg) s)).finish

/-- CLEAR (R202): legal in every phase; no link event. -/
def execClear (s : State) : Host.Outcome State Fault Refusal :=
  .next (s.withFb (zeroFill s.cfg.fbLen s.fb)).advance

end Sys2Proof.Machine
end

