-- ==== Sys2Proof/Machine/Operands.lean ====
section
/-!
DEFINITION. From operands to framebuffer bits: the rotation mapping (40_framebuffer_ops.md R121), the range test (R122),
index and bit (20_memory.md R51), the colour semantics of a masked byte (R120), the native runs of the line requests
(R123, R124), clipping (R125, R126) and the observation function PixelAt (20_memory.md R66). All on unbounded integers
(R14, R140).
-/

namespace Sys2Proof.Machine

/-- `RotMap(r, x, y)` (R121): logical to native coordinates, for all integers. -/
def rotMap (c : Cfg) (r : Rotation) (x y : Int) : Int × Int :=
  match r with
  | .r0 => (x, y)
  | .r1 => (c.width - 1 - y, x)
  | .r2 => (c.width - 1 - x, c.height - 1 - y)
  | .r3 => (y, c.height - 1 - x)

/-- The native point is on the panel: `[0,WIDTH) x [0,HEIGHT)`. -/
abbrev OnPanel (c : Cfg) (p : Int × Int) : Prop :=
  0 ≤ p.1 ∧ p.1 < c.width ∧ 0 ≤ p.2 ∧ p.2 < c.height

/-- `Index(xn, yn)` (R51). -/
def pixelIndex (c : Cfg) (p : Int × Int) : Int := p.1 + (p.2 / 8) * c.width

/-- `Bit(xn, yn)` (R51): `yn & 7`, for `yn` not negative (R141). -/
def pixelBit (p : Int × Int) : Nat := (p.2 % 8).toNat

/-- The mask of one bit, `1 << b`. -/
def bitMask (b : Nat) : Byte := 1#8 <<< b

/-- What a colour makes of the bits of `v` that `mask` selects (R120, R130). -/
def onByte (c : Colour) (v mask : Byte) : Byte :=
  match c with
  | .set => v ||| mask
  | .clear => v &&& (0xFF ^^^ mask)
  | .invert => v ^^^ mask

/-- What a colour makes of one bit (R53, R132). -/
def onBit (c : Colour) (old : Bool) : Bool :=
  match c with
  | .set => true
  | .clear => false
  | .invert => !old

/-- `Apply(i, mask, c)` (R120). -/
def apply (i : Int) (mask : Byte) (c : Colour) (s : State) : Except Fault State := do
  let v ← memRead i s
  memWrite i (onByte c v mask) s

/-- One whole byte of a vertical run (R126 (b)): SET and CLEAR write without reading, INVERT complements. -/
def applyWhole (i : Int) (c : Colour) (s : State) : Except Fault State :=
  match c with
  | .set => memWrite i 0xFF s
  | .clear => memWrite i 0x00 s
  | .invert => do
    let v ← memRead i s
    memWrite i (0xFF ^^^ v) s

/-- Which native run a line request draws. -/
inductive RunKind where
  | horizontal
  | vertical
deriving DecidableEq, Repr

/-- A native run: where it starts and how long it is, before clipping. -/
structure NativeRun where
  kind : RunKind
  xn : Int
  yn : Int
  len : Int
deriving DecidableEq, Repr

/-- The call R123 makes for HLINE. -/
def hlineRun (c : Cfg) (r : Rotation) (x y l : Int) : NativeRun :=
  match r with
  | .r0 => ⟨.horizontal, x, y, l⟩
  | .r1 => ⟨.vertical, c.width - 1 - y, x, l⟩
  | .r2 => ⟨.horizontal, c.width - 1 - x - (l - 1), c.height - 1 - y, l⟩
  | .r3 => ⟨.vertical, y, c.height - 1 - x - (l - 1), l⟩

/-- The call R124 makes for VLINE. -/
def vlineRun (c : Cfg) (r : Rotation) (x y l : Int) : NativeRun :=
  match r with
  | .r0 => ⟨.vertical, x, y, l⟩
  | .r1 => ⟨.horizontal, c.width - 1 - y - (l - 1), x, l⟩
  | .r2 => ⟨.vertical, c.width - 1 - x, c.height - 1 - y - (l - 1), l⟩
  | .r3 => ⟨.horizontal, y, c.height - 1 - x, l⟩

/-- The two cuts of R125 and R126 along the axis of a run: what hangs over the near edge, then over the far edge. The
start and length that are left; a length of 0 or less is a run that draws nothing. -/
def clip (start len size : Int) : Int × Int :=
  let start' := if start < 0 then 0 else start
  let len' := if start < 0 then len + start else len
  (start', if start' + len' > size then size - start' else len')

/-- `PixelAt(FB, r, x, y)` (R66): the observer's view of one logical pixel. -/
def pixelAt (c : Cfg) (m : Memory) (r : Rotation) (x y : Int) : Option Bool :=
  let p := rotMap c r x y
  if OnPanel c p then some ((m.read (pixelIndex c p).toNat).getLsbD (pixelBit p)) else none

end Sys2Proof.Machine
end

