-- ==== Sys2Proof/Machine/Framebuffer.lean ====
section
/-!
DEFINITION. The drawing requests SETPIXEL, HLINE and VLINE (40_framebuffer_ops.md). They reach the framebuffer and `pc`
alone: no link event, no phase guard (R6, R242).
-/

namespace Sys2Proof.Machine

/-- The end of a drawing request: `pc <- pc + 1` (R27). The fault is `memRead`'s or `memWrite`'s, which no legal
configuration reaches (R60). -/
def complete (r : Except Fault State) : Host.Outcome State Fault Refusal :=
  match r with
  | .ok s => .next s.advance
  | .error f => .fault f

/-! ## Horizontal runs (R125) -/

/-- The byte-wise column loop: `k` bytes from index `i`, each under `mask`. -/
def applyRow (mask : Byte) (c : Colour) : Nat → Int → State → Except Fault State
  | 0, _, s => .ok s
  | k + 1, i, s => do
    let s ← apply i mask c s
    applyRow mask c k (i + 1) s

/-- `HRun(xn, yn, w, c)` (R125). -/
def hRun (xn yn w : Int) (c : Colour) (s : State) : Except Fault State :=
  if yn < 0 ∨ yn ≥ s.cfg.height then .ok s
  else
    let (x, w) := clip xn w s.cfg.width
    if w ≤ 0 then .ok s
    else applyRow (bitMask (pixelBit (x, yn))) c w.toNat (pixelIndex s.cfg (x, yn)) s

/-! ## Vertical runs (R126) -/

/-- Part (b): `k` whole bytes of one column, `WIDTH` apart. -/
def applyColumn (c : Colour) : Nat → Int → State → Except Fault State
  | 0, _, s => .ok s
  | k + 1, i, s => do
    let s ← applyWhole i c s
    applyColumn c k (i + s.cfg.width) s

/-- The leading mask of part (a): bits `m` to 7, or `h` of them where the run ends inside the band. -/
def leadMask (m h : Nat) : Byte :=
  let mask := 0xFF#8 <<< m
  if h < 8 - m then mask &&& (0xFF#8 >>> (8 - m - h)) else mask

/-- The trailing mask of part (c): bits 0 to `h-1`. -/
def tailMask (h : Nat) : Byte := (1#8 <<< h) - 1

/-- Parts (b) and (c): `h` rows from the top of the band of index `i`. -/
def columnFromBandTop (c : Colour) (h : Nat) (i : Int) (s : State) : Except Fault State := do
  let s ← applyColumn c (h / 8) i s
  if h % 8 > 0 then apply (i + (h / 8 : Nat) * s.cfg.width) (tailMask (h % 8)) c s else .ok s

/-- A vertical run of `h` rows, `h > 0`, that lies on the panel, from bit `m` of the byte of index `i`. -/
def columnRun (c : Colour) (m h : Nat) (i : Int) (s : State) : Except Fault State :=
  if m = 0 then columnFromBandTop c h i s
  else do
    let s ← apply i (leadMask m h) c s
    if h < 8 - m then .ok s else columnFromBandTop c (h - (8 - m)) (i + s.cfg.width) s

/-- `VRun(xn, yn, h, c)` (R126). -/
def vRun (xn yn h : Int) (c : Colour) (s : State) : Except Fault State :=
  if xn < 0 ∨ xn ≥ s.cfg.width then .ok s
  else
    let (y, h) := clip yn h s.cfg.height
    if h ≤ 0 then .ok s
    else columnRun c (pixelBit (xn, y)) h.toNat (pixelIndex s.cfg (xn, y)) s

/-- Draw a native run. -/
def drawRun (r : NativeRun) (c : Colour) (s : State) : Except Fault State :=
  match r.kind with
  | .horizontal => hRun r.xn r.yn r.len c s
  | .vertical => vRun r.xn r.yn r.len c s

/-! ## The requests -/

/-- SETPIXEL (R122): map, test the native point, then change one bit of one byte. -/
def execSetPixel (rot : Rotation) (x y : Int) (col : Colour) (s : State) : Host.Outcome State Fault Refusal :=
  let p := rotMap s.cfg rot x y
  if OnPanel s.cfg p then complete (apply (pixelIndex s.cfg p) (bitMask (pixelBit p)) col s)
  else .next s.advance

/-- HLINE (R123). -/
def execHline (rot : Rotation) (x y len : Int) (col : Colour) (s : State) : Host.Outcome State Fault Refusal :=
  complete (drawRun (hlineRun s.cfg rot x y len) col s)

/-- VLINE (R124). -/
def execVline (rot : Rotation) (x y len : Int) (col : Colour) (s : State) : Host.Outcome State Fault Refusal :=
  complete (drawRun (vlineRun s.cfg rot x y len) col s)

end Sys2Proof.Machine
end

