-- ==== Sys2Proof/Machine/Dispatch.lean ====
section
/-! DEFINITION. One arm per request (30_encoding.md R83, R88). -/

namespace Sys2Proof.Machine

def exec (i : Instr) (s : State) : Host.Outcome State Fault Refusal :=
  match i with
  -- 40_framebuffer_ops.md
  | .setPixel rot x y col => Sys2Proof.Machine.execSetPixel rot x y col s
  | .hline rot x y len col => Sys2Proof.Machine.execHline rot x y len col s
  | .vline rot x y len col => Sys2Proof.Machine.execVline rot x y len col s
  -- 42_controller_ops.md
  | .begin vcc rst addr => Sys2Proof.Machine.execBegin vcc rst addr s
  | .invert flag => Sys2Proof.Machine.execInvert flag s
  | .dim flag => Sys2Proof.Machine.execDim flag s
  | .scrollR first last => Sys2Proof.Machine.execScrollR first last s
  | .scrollL first last => Sys2Proof.Machine.execScrollL first last s
  | .scrollDR first last => Sys2Proof.Machine.execScrollDR first last s
  | .scrollDL first last => Sys2Proof.Machine.execScrollDL first last s
  | .stopScroll => Sys2Proof.Machine.execStopScroll s
  | .flush => Sys2Proof.Machine.execFlush s
  | .clear => Sys2Proof.Machine.execClear s

end Sys2Proof.Machine
end

