-- ==== Sys2Proof/Machine/Step.lean ====
section
/-! DEFINITION. One step: one request, run to completion (00_scope.md R12, 10_state.md R27, 60_exceptions.md R235). -/

namespace Sys2Proof.Machine

/-- One step. A machine that hangs on a stalled bus stays as it is for ever (R268, log entry 7). With no request left the
block is idle and nothing changes (R272, log entry 6). A reserved word is refused before anything else is looked at
(R235, R236). Otherwise the decoded request is executed whole. -/
def step (s : State) : Host.Outcome State Fault Refusal :=
  if s.stalled then .next s
  else
    match fetch s with
    | none => .next s
    | some w =>
      match decode w with
      | .error why => .refused (.reservedRequest why)
      | .ok i => exec i s

/-- `s` with the request word of `nbits` bits `w` placed where the next step fetches, and not hanging, so that the next
step runs it (log entries 5 and 17). -/
def State.withFetchWord (s : State) (nbits w : Nat) : State :=
  { s with prog := placeRequest s.prog s.pc (tableWord nbits w), stalled := false }

end Sys2Proof.Machine
end

