-- ==== Sys2Proof/Machine/Assembler.lean ====
section
/-!
DEFINITION. The text of a request list: the assembler syntax (30_encoding.md R89), the pseudo-instructions (R90) and the
listing of a word (R92). Text is a list of characters. It is the host's notation: no part of the machine reads it.
-/

namespace Sys2Proof.Machine

/-! ## Reading a line -/

abbrev Text := List Char

def isBlank (ch : Char) : Bool := ch == ' ' || ch == '\t'

def trim (t : Text) : Text := ((t.dropWhile isBlank).reverse.dropWhile isBlank).reverse

/-- Cut a text at every occurrence of `sep`. -/
def splitAt (sep : Char) : Text → List Text
  | [] => [[]]
  | ch :: rest =>
    if ch = sep then [] :: splitAt sep rest
    else
      match splitAt sep rest with
      | [] => [[ch]]
      | t :: ts => (ch :: t) :: ts

def digitValue (ch : Char) : Option Nat :=
  if '0' ≤ ch ∧ ch ≤ '9' then some (ch.toNat - '0'.toNat)
  else if 'A' ≤ ch ∧ ch ≤ 'F' then some (ch.toNat - 'A'.toNat + 10)
  else if 'a' ≤ ch ∧ ch ≤ 'f' then some (ch.toNat - 'a'.toNat + 10)
  else none

/-- A numeral in a base, the value so far in front. -/
def digits (base : Nat) : Nat → Text → Option Nat
  | v, [] => some v
  | v, ch :: rest =>
    match digitValue ch with
    | some d => if d < base then digits base (v * base + d) rest else none
    | none => none

/-- An unsigned numeral: decimal, or hex after `0x` (R89: the address is "usually written in hex"; log entry 19). -/
def unsigned (t : Text) : Option Nat :=
  match t with
  | [] => none
  | '0' :: 'x' :: ch :: rest => digits 16 0 (ch :: rest)
  | ch :: rest => digits 10 0 (ch :: rest)

/-- A signed decimal numeral in the range of a 16-bit field (R89); outside it the line is an error. -/
def coordinate (t : Text) : Option Int :=
  let v : Option Int :=
    match t with
    | [] => none
    | '-' :: ch :: rest => (digits 10 0 (ch :: rest)).map fun n => -(n : Int)
    | ch :: rest => (digits 10 0 (ch :: rest)).map fun n => (n : Int)
  v.filter fun n => decide (-32768 ≤ n ∧ n ≤ 32767)

/-- An unsigned numeral below `bound`. -/
def below (bound : Nat) (t : Text) : Option Nat := (unsigned t).filter (· < bound)

def rotation (t : Text) : Option Rotation :=
  (below 4 t).map fun n => Rotation.ofCode (BitVec.ofNat 2 n)

/-- The colour names and their aliases BLACK, WHITE, INVERSE (R89). -/
def colour (t : Text) : Option Colour :=
  if t = "CLEAR".toList ∨ t = "BLACK".toList then some .clear
  else if t = "SET".toList ∨ t = "WHITE".toList then some .set
  else if t = "INVERT".toList ∨ t = "INVERSE".toList then some .invert
  else none

def supplyMode (t : Text) : Option Supply :=
  if t = "INT".toList then some .int
  else if t = "EXT".toList then some .ext
  else none

def bit (t : Text) : Option Bool := (below 2 t).map (· == 1)

def band (t : Text) : Option Byte := (below 256 t).map (BitVec.ofNat 8)

def address (t : Text) : Option DevAddr := (below 128 t).map (BitVec.ofNat 7)

/-! ## Operand lists, one reader per form of R89 and R90 -/

def readPixel (ops : List Text) : Option Instr :=
  match ops with
  | [r, x, y, c] => do return .setPixel (← rotation r) (← coordinate x) (← coordinate y) (← colour c)
  | _ => none

/-- `PIXEL x, y, col` expands to `SETPIXEL 0, x, y, col` (R90). -/
def readPseudoPixel (ops : List Text) : Option Instr :=
  match ops with
  | [x, y, c] => do return .setPixel .r0 (← coordinate x) (← coordinate y) (← colour c)
  | _ => none

/-- HLINE and VLINE; written with four operands they take `rot = 0` (R90). -/
def readLine (mk : Rotation → Int → Int → Int → Colour → Instr) (ops : List Text) : Option Instr :=
  match ops with
  | [r, x, y, l, c] => do return mk (← rotation r) (← coordinate x) (← coordinate y) (← coordinate l) (← colour c)
  | [x, y, l, c] => do return mk .r0 (← coordinate x) (← coordinate y) (← coordinate l) (← colour c)
  | _ => none

def readBegin (ops : List Text) : Option Instr :=
  match ops with
  | [v, r, a] => do return .begin (← supplyMode v) (← bit r) (← address a)
  | _ => none

def readFlag (mk : Bool → Instr) (ops : List Text) : Option Instr :=
  match ops with
  | [f] => do return mk (← bit f)
  | _ => none

def readBands (mk : Byte → Byte → Instr) (ops : List Text) : Option Instr :=
  match ops with
  | [a, b] => do return mk (← band a) (← band b)
  | _ => none

def readNone (i : Instr) (ops : List Text) : Option Instr :=
  match ops with
  | [] => some i
  | _ => none

/-- The request a mnemonic and its operands name; none is an assembly error (R89). -/
def readRequest (m : Text) (ops : List Text) : Option Instr :=
  if m = "SETPIXEL".toList then readPixel ops
  else if m = "HLINE".toList then readLine .hline ops
  else if m = "VLINE".toList then readLine .vline ops
  else if m = "BEGIN".toList then readBegin ops
  else if m = "INVERT".toList then readFlag .invert ops
  else if m = "DIM".toList then readFlag .dim ops
  else if m = "SCROLLR".toList then readBands .scrollR ops
  else if m = "SCROLLL".toList then readBands .scrollL ops
  else if m = "SCROLLDR".toList then readBands .scrollDR ops
  else if m = "SCROLLDL".toList then readBands .scrollDL ops
  else if m = "STOPSCROLL".toList then readNone .stopScroll ops
  else if m = "FLUSH".toList then readNone .flush ops
  else if m = "CLEAR".toList then readNone .clear ops
  else if m = "DISPLAY".toList then readNone .flush ops
  else if m = "PIXEL".toList then readPseudoPixel ops
  else none

/-- What one line of text is. -/
inductive AsmLine where
  | blank
  | request (i : Instr)
  | error
deriving DecidableEq, Repr

/-- One line (R89): a comment from `;` on is dropped, then the mnemonic, then the operands between commas. -/
def readAsmLine (line : Text) : AsmLine :=
  let t := trim (line.takeWhile (· ≠ ';'))
  if t = [] then .blank
  else
    let rest := trim (t.dropWhile fun ch => !isBlank ch)
    let ops := if rest = [] then [] else (splitAt ',' rest).map trim
    match readRequest (t.takeWhile fun ch => !isBlank ch) ops with
    | some i => .request i
    | none => .error

/-- The request list of a text, one request per line; none if a line is an error (R89). -/
def assembleLines : List Text → Option (List Request)
  | [] => some []
  | line :: rest =>
    match readAsmLine line with
    | .blank => assembleLines rest
    | .request i => (assembleLines rest).map (encode i :: ·)
    | .error => none

def assemble (t : Text) : Option (List Request) := assembleLines (splitAt '\n' t)

/-! ## Listing (R92) -/

def hexDigit (v : BitVec 4) : Char :=
  if v.toNat < 10 then Char.ofNat ('0'.toNat + v.toNat) else Char.ofNat ('A'.toNat + v.toNat - 10)

/-- A word as 16 hex digits, most significant first, after `0x`. -/
def listing (w : Request) : Text :=
  '0' :: 'x' :: [15, 14, 13, 12, 11, 10, 9, 8, 7, 6, 5, 4, 3, 2, 1, 0].map fun k => hexDigit (w.extractLsb' (4 * k) 4)

end Sys2Proof.Machine
end

