-- ==== Sys2Proof/Machine/Log.lean ====
section
/-!
DEFINITION. The observation function `LOG(TRACE)` (41_transport.md R170 to R172): the logical stream the display
controller receives, read back from the link events. It is not part of the block: nothing in the machine reads it.
-/

namespace Sys2Proof.Machine

/-- An item of the logical stream (R170). -/
inductive LogItem where
  /-- `C(b)`: one command byte. -/
  | command (b : Byte)
  /-- `D(bs)`: one burst of display data. -/
  | data (bs : List Byte)
  /-- `O(a)`: the open; the address is absent for 4-wire. -/
  | opened (a : Option DevAddr)
  /-- `R(L1, L2, L3)`: a reset pulse. -/
  | pulse (l1 l2 l3 : Level)
deriving DecidableEq, Repr

/-- What a reader of the trace keeps: the 4-wire line levels, the bits of the byte being shifted in (R171), the bytes since
CS went to 0 with their DC tag, the bytes of the open 2-wire transaction, the data fragments of the burst being collected
(R172), the RST levels of the pulse being collected, and the items so far. -/
structure LogReader where
  cs : Level
  dc : Level
  clk : Level
  mosi : Level
  bits : List Bool
  bytes : List (Level × Byte)
  txn : Option (List Byte)
  burst : List Byte
  rst : List Level
  items : List LogItem
deriving DecidableEq, Repr

/-- A reader before the first event, for any prior levels of the lines. -/
def LogReader.start (p : Pins) : LogReader where
  cs := p.cs
  dc := p.dc
  clk := p.clk
  mosi := p.mosi
  bits := []
  bytes := []
  txn := none
  burst := []
  rst := []
  items := []

/-- The reader is between transfers: CS high, and no byte, transaction or pulse half read. -/
abbrev LogReader.Idle (r : LogReader) : Prop :=
  r.cs = true ∧ r.bits = [] ∧ r.bytes = [] ∧ r.txn = none ∧ r.rst = []

/-- The items of the bytes gathered under one chip-select assertion (R171): each byte tagged DC = 0 is a command, a
maximal run of bytes tagged DC = 1 is one burst. -/
def itemsOf : List (Level × Byte) → List LogItem
  | [] => []
  | (false, b) :: rest => .command b :: itemsOf rest
  | (true, b) :: rest =>
    match itemsOf rest, rest with
    | .data bs :: more, (true, _) :: _ => .data (b :: bs) :: more
    | items, _ => .data [b] :: items

/-- The byte of eight bits, most significant first. -/
def byteOfBits (bits : List Bool) : Byte :=
  bits.foldl (fun v b => (v <<< 1) ||| (if b then 1#8 else 0#8)) 0#8

/-- End the data burst being collected, if it has bytes. -/
def LogReader.closeBurst (r : LogReader) : LogReader :=
  if r.burst = [] then r else { r with items := r.items ++ [.data r.burst], burst := [] }

/-- Add items that are no data fragment: they end the burst before them. On the 2-wire link with RATE_BOOST off R172 says
so of a command transaction only; that an open or a reset pulse between two fragments ends the burst too (so that LOG reads
D, O, D or D, R, D) is a DESIGN CHOICE (log entry 23). -/
def LogReader.add (r : LogReader) (new : List LogItem) : LogReader :=
  let r := r.closeBurst
  { r with items := r.items ++ new }

/-- A rising clock edge while CS is 0 shifts MOSI in; the eighth completes a byte (R171). -/
def LogReader.shiftIn (r : LogReader) : LogReader :=
  let bits := r.bits ++ [r.mosi]
  if bits.length = 8 then { r with bits := [], bytes := r.bytes ++ [(r.dc, byteOfBits bits)] } else { r with bits := bits }

/-- A `Pin` event on the 4-wire link or the reset line (R170, R171). -/
def LogReader.pin (r : LogReader) (l : Line) (v : Level) : LogReader :=
  match l with
  | .dc => { r with dc := v }
  | .mosi => { r with mosi := v }
  | .clk =>
    let r' := if !r.cs && v && !r.clk then r.shiftIn else r
    { r' with clk := v }
  | .cs =>
    if v && !r.cs then { r.add (itemsOf r.bytes) with cs := true, bytes := [] }
    else { r with cs := v }
  | .rst =>
    match r.rst with
    | [l1, l2] => { r.add [.pulse l1 l2 v] with rst := [] }
    | ls => { r with rst := ls ++ [v] }

/-- The end of a 2-wire transaction whose bytes are `bs` (R172). A transaction of any other form leaves no item (log
entry 14). -/
def LogReader.endTransaction (c : Cfg) (r : LogReader) (bs : List Byte) : LogReader :=
  match bs with
  | [] => r
  | ctrl :: payload =>
    if ctrl = c.codes.ctrlCmd then
      match payload with
      | [b] => r.add [.command b]
      | _ => r
    else if ctrl = c.codes.ctrlData then
      if 1 ≤ payload.length ∧ payload.length ≤ 16 then { r with burst := r.burst ++ payload } else r
    else r

/-- One event of the trace. -/
def LogReader.read (c : Cfg) (r : LogReader) (e : LinkEvent) : LogReader :=
  match e with
  | .open4 => r.add [.opened none]
  | .open2 a => r.add [.opened (some a)]
  | .pin l v => r.pin l v
  | .shift b => if r.cs then r else { r with bytes := r.bytes ++ [(r.dc, b)] }
  | .start _ => { r with txn := some [] }
  | .byte b => { r with txn := r.txn.map (· ++ [b]) }
  | .stop =>
    match r.txn with
    | some bs => { r.endTransaction c bs with txn := none }
    | none => r
  | .rateMax => r.closeBurst
  | .rateRestore => r.closeBurst
  | .delay _ => r

def LogReader.readAll (c : Cfg) (r : LogReader) (es : List LinkEvent) : LogReader :=
  es.foldl (LogReader.read c) r

/-- `LOG` of a trace, read from a given reader on; a burst still being collected at the end is an item (log entry 14). -/
def logFrom (c : Cfg) (r : LogReader) (es : List LinkEvent) : List LogItem :=
  (r.readAll c es).closeBurst.items

/-- The prior levels `log` starts from: CS high, the others low. They do not matter (U6, R171; log entry 14). -/
def priorLevels : Pins := ⟨true, false, false, false, false⟩

/-- The reader at the end of a trace. -/
def logReader (c : Cfg) (es : List LinkEvent) : LogReader :=
  (LogReader.start priorLevels).readAll c es

/-- `LOG(TRACE)` (R170). -/
def log (c : Cfg) (es : List LinkEvent) : List LogItem :=
  logFrom c (LogReader.start priorLevels) es

/-- A call of the Transport's interface (R151). -/
inductive Call where
  | openLink
  | command (b : Byte)
  | data (bs : List Byte)
deriving DecidableEq, Repr

/-- The events of a call. -/
def Call.events (c : Cfg) (a : DevAddr) : Call → List LinkEvent
  | .openLink => Machine.openLink c a
  | .command b => sendCommand c a b
  | .data bs => sendData c a bs

/-- An item without the address inside `O(a)` (R173). -/
def LogItem.withoutAddr : LogItem → LogItem
  | .opened _ => .opened none
  | .command b => .command b
  | .data bs => .data bs
  | .pulse l1 l2 l3 => .pulse l1 l2 l3

end Sys2Proof.Machine
end

