-- ==== Sys2Proof/Safety.lean ====
section
/-!
DEFINITION. The terms claims use: the premise BusNeverStalls (70_reset_and_hazards.md R268), the reset states (10_state.md
R33), the invariant of a run, runs of several requests, the end of a run (R272), and the lines after a transfer.
-/

namespace Sys2Proof.Machine

/-- The premise `BusNeverStalls` (R268, D26): the collaborators accept every event, and no request hangs. -/
abbrev State.BusNeverStalls (s : State) : Prop := s.busAccepts = none ∧ s.stalled = false

/-- The reset states (R33, R260): PHASE Uninitialized, RATE_SAVED empty, TRACE empty, pc 0; FB, SUPPLY, ADDR and PINS
arbitrary; a legal configuration; any request list. -/
abbrev State.IsReset (s : State) : Prop :=
  s.cfg.Legal ∧ s.fb.Wf ∧ s.fb.Within s.cfg.fbLen ∧ s.phase = .uninitialized ∧ s.rateSaved = .empty ∧
    s.trace = [] ∧ s.pc = 0 ∧ s.stalled = false

/-- The last level written to a line by a trace, if it was written at all. -/
def lastLevel (l : Line) (es : List LinkEvent) : Option Level :=
  es.foldl (fun last e => match e with
    | .pin l' v => if l' = l then some v else last
    | .open4 | .open2 _ | .shift _ | .start _ | .byte _ | .stop | .rateMax | .rateRestore | .delay _ => last) none

def Line.all : List Line := [.cs, .dc, .clk, .mosi, .rst]

/-- The framebuffer is in its canonical form and inside the panel of a legal configuration (R21, R58). -/
abbrev State.FbOk (s : State) : Prop := s.cfg.Legal ∧ s.fb.Wf ∧ s.fb.Within s.cfg.fbLen

/-- What the phase says between two requests (R22, R191, R240): nothing has been sent before BEGIN, and Initializing is
seen only where BEGIN hangs. -/
abbrev State.PhaseOk (s : State) : Prop :=
  (s.phase = .uninitialized → s.trace = [] ∧ s.stalled = false) ∧ (s.phase = .initializing → s.stalled = true)

/-- PINS holds the last level written (R28), and on the 4-wire link CS is high between transfers. -/
abbrev State.PinsOk (s : State) : Prop :=
  (∀ l ∈ Line.all, lastLevel l s.trace = none ∨ lastLevel l s.trace = some (s.pins.level l)) ∧
    (s.cfg.variant = .fourWire → s.phase = .ready → s.stalled = false → s.pins.cs = true)

/-- Between two requests no transfer is half done and no rate is held (R29, R154, R162); a machine that hangs does so on
a request of its list, on a bus that accepts nothing more (R268). -/
abbrev State.LinkOk (s : State) : Prop :=
  (s.stalled = false → s.rateSaved = .empty ∧ (logReader s.cfg s.trace).Idle) ∧
    (s.stalled = true → s.busAccepts = some 0 ∧ s.pc < s.prog.length)

/-- The invariant of a run: it holds in every reset state, and every step keeps it. -/
abbrev State.Inv (s : State) : Prop :=
  s.FbOk ∧ s.PhaseOk ∧ s.PinsOk ∧ s.LinkOk ∧ s.pc ≤ s.prog.length

/-- Execute requests one after another, stopping at the first fault or refusal. -/
def execAll : List Instr → State → Host.Outcome State Fault Refusal
  | [], s => .next s
  | i :: rest, s =>
    match exec i s with
    | .next t => execAll rest t
    | .fault f => .fault f
    | .refused r => .refused r

/-- The end of a run (R272): every request of PROG is complete. -/
abbrev State.Ended (s : State) : Prop := s.pc = s.prog.length ∧ s.stalled = false

/-- The end state of a run (R272). -/
structure EndState where
  fb : List Byte
  phase : Phase
  supply : Supply
  addr : DevAddr
  pins : Pins
  trace : List LinkEvent
deriving DecidableEq, Repr

/-- The end state, if the run has ended; a run that hangs or was refused has none (R272). -/
def State.endState (s : State) : Option EndState :=
  if s.Ended then some ⟨s.fbBytes, s.phase, s.supply, s.addr, s.pins, s.trace⟩ else none

/-- PINS after a transfer whose last byte is `b` (R153 to R156): on the 4-wire link DC keeps the transfer's level, CS is
high, and a bit-banged byte leaves CLK high and MOSI at bit 0; the 2-wire link drives none of these lines. -/
def pinsAfterTransfer (c : Cfg) (dc : Level) (b : Byte) (p : Pins) : Pins :=
  match c.variant with
  | .twoWire => p
  | .fourWire =>
    { p with
      cs := true
      dc := dc
      clk := if c.hwAccel then p.clk else true
      mosi := if c.hwAccel then p.mosi else b.getLsbD 0 }

/-- The bits of a drawn pixel, by index and bit (R51, R52): bit `b` of byte `a` is pixel `(a mod WIDTH, 8*(a/WIDTH)+b)`. -/
def pixelOfBit (c : Cfg) (a b : Nat) : Int × Int :=
  ((a % c.width : Nat), (8 * (a / c.width) + b : Nat))

end Sys2Proof.Machine

namespace Sys2Proof

/-- The requests that only draw: SETPIXEL, HLINE, VLINE and CLEAR (R6, R242). -/
def Instr.draws : Instr → Bool
  | .setPixel _ _ _ _ => true
  | .hline _ _ _ _ _ => true
  | .vline _ _ _ _ _ => true
  | .clear => true
  | .begin _ _ _ => false
  | .invert _ => false
  | .dim _ => false
  | .scrollR _ _ => false
  | .scrollL _ _ => false
  | .scrollDR _ _ => false
  | .scrollDL _ _ => false
  | .stopScroll => false
  | .flush => false

/-- The Ready-only requests (R190). -/
def Instr.readyOnly : Instr → Bool
  | .invert _ => true
  | .dim _ => true
  | .scrollR _ _ => true
  | .scrollL _ _ => true
  | .scrollDR _ _ => true
  | .scrollDL _ _ => true
  | .stopScroll => true
  | .flush => true
  | .setPixel _ _ _ _ => false
  | .hline _ _ _ _ _ => false
  | .vline _ _ _ _ _ => false
  | .begin _ _ _ => false
  | .clear => false

end Sys2Proof
end

