-- ==== Sys2Proof/Certificates/Slice0/Obligations.lean ====
section
/-!
DEFINITION. The statements for the provers, from the numbered rules of spec/. A rule the spec marks as its own decision or
inference (D<n> of 92_eei_decisions.md, "[derived: ...]") gives a statement of basis 'derived', and the docstring says so.
-/

namespace Sys2Proof.Claims

open Sys2Proof Sys2Proof.Machine

/-- The bits R82 requires to be zero in a word with opcode `op`: those no field of its format names. -/
def mustBeZero (op : Nat) : Request :=
  match op with
  | 0x1 => 0x00FF00000000FFFF
  | 0x2 => 0x00FF000000000000
  | 0x3 => 0x00FF000000000000
  | 0x4 => 0x0FFFFFFFFFFFFE00
  | 0x5 => 0x0FFFFFFFFFFFFFFE
  | 0x6 => 0x0FFFFFFFFFFFFFFE
  | 0x7 => 0x0FFFFFFFFFFF0000
  | 0x8 => 0x0FFFFFFFFFFF0000
  | 0x9 => 0x0FFFFFFFFFFF0000
  | 0xA => 0x0FFFFFFFFFFF0000
  | 0xB => 0x0FFFFFFFFFFFFFFF
  | 0xC => 0x0FFFFFFFFFFFFFFF
  | 0xD => 0x0FFFFFFFFFFFFFFF
  | _ => 0

/-- R86: `op` is 0x0, 0xE or 0xF; or a must-be-zero bit is one; or format P with `col = 3`. -/
def ReservedWord (w : Request) : Prop :=
  let op := (w >>> 60).toNat
  op = 0x0 ∨ op = 0xE ∨ op = 0xF ∨ w &&& mustBeZero op ≠ 0 ∨
    ((op = 0x1 ∨ op = 0x2 ∨ op = 0x3) ∧ (w >>> 56).toNat % 4 = 3)

/-- A request completes by sending `bytes` as command bytes, one Transport call each: TRACE gains exactly their events,
LOG gains exactly their items, the lines follow (R28, R153, R156), `pc` advances, and nothing else changes. -/
def SendsCommands (i : Instr) (s : State) (bytes : List Byte) : Prop :=
  let trace := s.trace ++ bytes.flatMap (sendCommand s.cfg s.addr)
  exec i s = .next { s with
    trace := trace, pins := pinsAfterTransfer s.cfg false (bytes.getLastD 0) s.pins, pc := s.pc + 1 } ∧
  log s.cfg trace = log s.cfg s.trace ++ bytes.map .command

/-- A line request draws its pixels and nothing else: it completes; bit `b` of byte `a` takes the colour where the run
(pixel `k` of it at the logical point `point k`) covers that bit's pixel, and keeps its value elsewhere; every index outside
the framebuffer reads as before; `fb` and `pc` are all that changes. -/
def DrawsPixels (i : Instr) (s : State) (r : Rotation) (len : Int) (point : Int → Int × Int) (col : Colour) : Prop :=
  ∃ m : Memory, exec i s = .next { s with fb := m, pc := s.pc + 1 } ∧ m.Wf ∧
    (∀ a, s.cfg.fbLen ≤ a → m.read a = s.fb.read a) ∧
    ∀ a b, a < s.cfg.fbLen → b < 8 →
      ((∃ k, 0 ≤ k ∧ k < len ∧ rotMap s.cfg r (point k).1 (point k).2 = pixelOfBit s.cfg a b) →
        (m.read a).getLsbD b = onBit col ((s.fb.read a).getLsbD b)) ∧
      ((¬∃ k, 0 ≤ k ∧ k < len ∧ rotMap s.cfg r (point k).1 (point k).2 = pixelOfBit s.cfg a b) →
        (m.read a).getLsbD b = (s.fb.read a).getLsbD b)

end Sys2Proof.Claims

open Sys2Proof Sys2Proof.Machine Sys2Proof.Claims

/-! ## Encoding (30_encoding.md Part A; the encoding is the spec's own decision, D3, D4) -/

/-- R81 to R86, with the words of 95_test_vectors.md: one word per format and per opcode, and four reserved words. -/
def Obligations.WordsDecodeAsWritten : Prop :=
  decode 0x1E00FFFF80000000 = .ok (.setPixel .r3 (-1) (-32768) .invert) ∧
  decode 0x2900FFFD00050006 = .ok (.hline .r2 (-3) 5 6 .set) ∧
  decode 0x3C00000BFFFE0008 = .ok (.vline .r3 11 (-2) 8 .clear) ∧
  decode 0x40000000000000BD = .ok (.begin .int true 0x3D) ∧
  decode 0x400000000000013D = .ok (.begin .ext false 0x3D) ∧
  decode 0x5000000000000001 = .ok (.invert true) ∧
  decode 0x6000000000000000 = .ok (.dim false) ∧
  decode 0x7000000000000207 = .ok (.scrollR 2 7) ∧
  decode 0x8000000000000702 = .ok (.scrollL 7 2) ∧
  decode 0x900000000000000F = .ok (.scrollDR 0 15) ∧
  decode 0xA000000000000000 = .ok (.scrollDL 0 0) ∧
  decode 0xB000000000000000 = .ok .stopScroll ∧
  decode 0xC000000000000000 = .ok .flush ∧
  decode 0xD000000000000000 = .ok .clear ∧
  decode 0x1300000000000000 = .error .colour ∧
  decode 0x1100000000000001 = .error .mustBeZero ∧
  decode 0x4000000000000200 = .error .mustBeZero ∧
  decode 0xE000000000000000 = .error .opcode

/-- R81 to R88: decoding the encoding of a request whose operands fit their fields gives it back, every operand of it. -/
def Obligations.DecodeOfEncodeIsTheRequest : Prop :=
  ∀ i : Instr, i.WellFormed → decode (encode i) = .ok i

/-- R81 to R88: each word has one meaning: a word that decodes is the encoding of what it decodes to, whose operands fit
their fields. -/
def Obligations.EncodeOfDecodeIsTheWord : Prop :=
  ∀ (w : Request) (i : Instr), decode w = .ok i → i.WellFormed ∧ encode i = w

/-- R86, R88: decoding is total, and a word is rejected exactly where R86 calls it reserved. -/
def Obligations.ReservedWordsAreExactlyTheRejected : Prop :=
  ∀ w : Request, ReservedWord w ↔ ∃ why, decode w = .error why

/-! ## Steps and the request index -/

/-- R86, R235, R236: a reserved word is refused, whatever else the state holds; it is no no-op and no trap (D8). -/
def Obligations.StepRefusesReservedWords : Prop :=
  ∀ (s : State) (w : Request), s.stalled = false → s.prog[s.pc]? = some w → ReservedWord w →
    ∃ why, step s = .refused (.reservedRequest why)

/-- R27, R88: where the next word decodes, a step is exactly the execution of its request. -/
def Obligations.StepRunsTheDecodedRequest : Prop :=
  ∀ (s : State) (w : Request) (i : Instr), s.stalled = false → s.prog[s.pc]? = some w → decode w = .ok i →
    step s = exec i s

/-- With no request left the block is idle (the model's choice, log entry 6; R80, R234, R272). -/
def Obligations.StepWithoutRequestChangesNothing : Prop :=
  ∀ s : State, s.prog.length ≤ s.pc → step s = .next s

/-- R268: a request that hangs on a stalled bus never completes (the model's form of the spec's option (b), D26, log
entry 7). -/
def Obligations.HangingMachineNeverMoves : Prop :=
  ∀ s : State, s.stalled = true → step s = .next s

/-- The request that `withFetchWord` places is the one the very next step runs, and nothing but the request list and the
hanging is touched (log entries 5 and 17). -/
def Obligations.PlacedRequestIsTheNextToRun : Prop :=
  ∀ (s : State) (nbits w : Nat) (i : Instr), decodeTableWord nbits w = some i →
    step (s.withFetchWord nbits w) = exec i (s.withFetchWord nbits w) ∧
    s.withFetchWord nbits w = { s with prog := (s.withFetchWord nbits w).prog, stalled := false } ∧
    ∀ k, k ≠ s.pc → k < s.prog.length → (s.withFetchWord nbits w).prog[k]? = s.prog[k]?

/-- R27, R91, R268 (D2): every request that completes ends with `pc <- pc + 1`; one that hangs leaves `pc`. -/
def Obligations.EveryRequestAdvancesPcByOne : Prop :=
  ∀ (i : Instr) (s t : State), s.stalled = false → exec i s = .next t →
    t.pc = if t.stalled then s.pc else s.pc + 1

/-- R7 to R10, R27: no step changes the configuration or the request list. -/
def Obligations.ConfigurationAndRequestsNeverChange : Prop :=
  ∀ s t : State, step s = .next t → t.cfg = s.cfg ∧ t.prog = s.prog

/-- R30 (D30): TRACE only grows, by every request and by every step. -/
def Obligations.TraceOnlyGrows : Prop :=
  (∀ (i : Instr) (s t : State), exec i s = .next t → s.trace <+: t.trace) ∧
  ∀ s t : State, step s = .next t → s.trace <+: t.trace

/-! ## Phase, supply mode, address -/

/-- R241: the two transitions happen inside one BEGIN and in no other way; there is no transition out of Ready, none back,
and no error phase. Seen between requests, a completed BEGIN has moved Uninitialized to Ready, and one that hangs has moved
it to Initializing. -/
def Obligations.OnlyBeginMovesThePhase : Prop :=
  ∀ (i : Instr) (s t : State), s.stalled = false → exec i s = .next t →
    ((∃ vcc rst a, i = .begin vcc rst a) →
      s.phase = .uninitialized ∧
        (t.stalled = false → t.phase = .ready) ∧ (t.stalled = true → t.phase = .initializing)) ∧
    ((¬∃ vcc rst a, i = .begin vcc rst a) → t.phase = s.phase)

/-- R20, R23, R25 (D12): BEGIN latches SUPPLY and ADDR from its operands, and no other request writes either. -/
def Obligations.OnlyBeginLatchesSupplyAndAddress : Prop :=
  (∀ (vcc : Supply) (rst : Bool) (a : DevAddr) (s t : State), exec (.begin vcc rst a) s = .next t →
    t.supply = vcc ∧ t.addr = a) ∧
  ∀ (i : Instr) (s t : State), (∀ vcc rst a, i ≠ .begin vcc rst a) → exec i s = .next t →
    t.supply = s.supply ∧ t.addr = s.addr

/-- R190, R242 (D13): a Ready-only request outside Ready and a BEGIN outside Uninitialized are refused, under names of
their own; a drawing request is refused in no phase. -/
def Obligations.PhaseGuardsRefuse : Prop :=
  ∀ s : State,
    (∀ i : Instr, i.readyOnly = true → s.phase ≠ .ready → exec i s = .refused .notReady) ∧
    (∀ vcc rst a, s.phase ≠ .uninitialized → exec (.begin vcc rst a) s = .refused .beginNotUninitialized) ∧
    ∀ (i : Instr) (r : Refusal), i.draws = true → exec i s ≠ .refused r

/-! ## The whole machine -/

/-- R6: drawing requests change the framebuffer in memory only and emit no link event; the controller requests never write
it; and only FLUSH reads it: with any other framebuffer the others do exactly the same. -/
def Obligations.DrawingAndSendingAreSeparate : Prop :=
  (∀ (i : Instr) (s t : State), i.draws = true → exec i s = .next t →
    t = { s with fb := t.fb, pc := s.pc + 1 }) ∧
  (∀ (i : Instr) (s t : State), i.draws = false → exec i s = .next t → t.fb = s.fb) ∧
  ∀ (i : Instr) (s t : State) (m : Memory), i.draws = false → i ≠ .flush → exec i s = .next t →
    exec i { s with fb := m } = .next { t with fb := m }

/-- R21, R22, R28, R29, R154, R162, R268: the invariant of a run (`State.Inv`) is kept by every step, from every state that
meets it. -/
def Obligations.StepKeepsTheInvariant : Prop :=
  ∀ s t : State, s.Inv → step s = .next t → t.Inv

/-- R33: the reset state has the values the spec states for reset, and every reset state (whatever the unspecified content)
meets the invariant. -/
def Obligations.ResetMeetsTheInvariant : Prop :=
  State.reset.IsReset ∧ ∀ s : State, s.IsReset → s.Inv

/-- R8, R33, R233 (D9, D10, D11), R95 (D17): an illegal configuration has no machine; a legal one has, for every unspecified
content, a reset state that holds that content; and every reset state is constructed so. That a configuration which R8 allows
but whose two control bytes are equal is illegal too is the model's choice (log entry 13, from R95): R8 and R233 do not name it. -/
def Obligations.ConstructionYieldsExactlyTheResetStates : Prop :=
  (∀ (c : Cfg) (u : PowerUp) (prog : List Request), ¬c.Legal → construct c u prog = none) ∧
  (∀ (c : Cfg) (u : PowerUp) (prog : List Request), c.Legal → ∃ s, construct c u prog = some s ∧ s.IsReset ∧
    s.cfg = c ∧ s.prog = prog ∧ s.supply = u.supply ∧ s.addr = u.addr ∧ s.pins = u.pins ∧
    ∀ i, i < c.fbLen → s.fb.read i = u.bytes.getD i 0x00) ∧
  ∀ s : State, s.IsReset → ∃ u, construct s.cfg u s.prog = some s

/-- R230: no step raises an exception: in a legal configuration no fault is reached. -/
def Obligations.NoStepFaults : Prop :=
  ∀ (s : State) (f : Fault), s.cfg.Legal → step s ≠ .fault f

/-! ## Framebuffer memory and pixels -/

/-- R15, R57: a framebuffer write inside 0 to FB_LEN-1 completes; a read returns the last value written to that byte, every
other byte reads as before, and nothing else of the state changes; an access outside faults (log entry 12). -/
def Obligations.FramebufferReadAfterWrite : Prop :=
  ∀ (s : State) (i : Int) (v : Byte), s.fb.Wf →
    (0 ≤ i ∧ i < s.cfg.fbLen → ∃ m : Memory, memWrite i v s = .ok { s with fb := m } ∧ m.Wf ∧
      memRead i { s with fb := m } = .ok v ∧ ∀ j, j ≠ i → memRead j { s with fb := m } = memRead j s) ∧
    (¬(0 ≤ i ∧ i < s.cfg.fbLen) →
      memWrite i v s = .error .indexOutsideFramebuffer ∧ memRead i s = .error .indexOutsideFramebuffer)

/-- R51, R52 ([derived] in the spec): every pixel of the panel is exactly one bit of the framebuffer and every bit is some
pixel, with the inverse R52 gives. -/
def Obligations.PixelsAndFramebufferBitsCorrespond : Prop :=
  ∀ c : Cfg, c.Legal →
    (∀ p, OnPanel c p → 0 ≤ pixelIndex c p ∧ pixelIndex c p < c.fbLen ∧ pixelBit p < 8 ∧
      pixelOfBit c (pixelIndex c p).toNat (pixelBit p) = p) ∧
    ∀ a b, a < c.fbLen → b < 8 → OnPanel c (pixelOfBit c a b) ∧
      pixelIndex c (pixelOfBit c a b) = a ∧ pixelBit (pixelOfBit c a b) = b

/-- R121 (partly [derived] in the spec): the four rows of the rotation table; each rotation is a bijection of the integer
plane, and a logical point is on its canvas exactly when its image is on the panel. -/
def Obligations.RotationMapsTheCanvasOntoThePanel : Prop :=
  ∀ c : Cfg,
    (∀ x y : Int, rotMap c .r0 x y = (x, y) ∧ rotMap c .r1 x y = (c.width - y - 1, x) ∧
      rotMap c .r2 x y = (c.width - x - 1, c.height - y - 1) ∧ rotMap c .r3 x y = (y, c.height - x - 1)) ∧
    (∀ (r : Rotation) (p : Int × Int), ∃! q : Int × Int, rotMap c r q.1 q.2 = p) ∧
    (∀ x y : Int, ((0 ≤ x ∧ x < c.width ∧ 0 ≤ y ∧ y < c.height) ↔ OnPanel c (rotMap c .r0 x y)) ∧
      ((0 ≤ x ∧ x < c.width ∧ 0 ≤ y ∧ y < c.height) ↔ OnPanel c (rotMap c .r2 x y))) ∧
    ∀ x y : Int, ((0 ≤ x ∧ x < c.height ∧ 0 ≤ y ∧ y < c.width) ↔ OnPanel c (rotMap c .r1 x y)) ∧
      ((0 ≤ x ∧ x < c.height ∧ 0 ≤ y ∧ y < c.width) ↔ OnPanel c (rotMap c .r3 x y))

/-- R120: `Apply(i, mask, c)` inside the framebuffer: byte `i` is or-ed, and-not-ed or xor-ed with the mask; its bits outside
the mask, every other byte and everything else keep their value; an empty mask changes nothing. -/
def Obligations.ApplyChangesTheMaskedBits : Prop :=
  ∀ (s : State) (i : Int) (mask : Byte) (c : Colour), s.fb.Wf → 0 ≤ i ∧ i < s.cfg.fbLen →
    ∃ m : Memory, apply i mask c s = .ok { s with fb := m } ∧
      (c = .set → m.read i.toNat = s.fb.read i.toNat ||| mask) ∧
      (c = .clear → m.read i.toNat = s.fb.read i.toNat &&& ~~~mask) ∧
      (c = .invert → m.read i.toNat = s.fb.read i.toNat ^^^ mask) ∧
      (∀ b, mask.getLsbD b = false → (m.read i.toNat).getLsbD b = (s.fb.read i.toNat).getLsbD b) ∧
      (∀ a, a ≠ i.toNat → m.read a = s.fb.read a) ∧
      (mask = 0 → m = s.fb)

/-- R129 ([derived] in the spec): the masks of a vertical run: leading to the band's end, trailing, and inside one band. -/
def Obligations.MaskTables : Prop :=
  (∀ h, 8 ≤ h → [1, 2, 3, 4, 5, 6, 7].map (leadMask · h) = [0xFE, 0xFC, 0xF8, 0xF0, 0xE0, 0xC0, 0x80]) ∧
  [1, 2, 3, 4, 5, 6, 7].map tailMask = [0x01, 0x03, 0x07, 0x0F, 0x1F, 0x3F, 0x7F] ∧
  ∀ m h, 1 ≤ m → 1 ≤ h → m + h ≤ 8 → leadMask m h = ((1#8 <<< h) - 1) <<< m

/-! ## Drawing requests -/

/-- R51, R120, R121, R122: SETPIXEL completes. On the panel one byte is read and written, at the index of the mapped point,
and only the point's bit of it can change; off the panel nothing changes. `fb` and `pc` are all that changes. -/
def Obligations.SetPixelResult : Prop :=
  ∀ (s : State) (r : Rotation) (x y : Int) (col : Colour), s.cfg.Legal → s.fb.Wf →
    (OnPanel s.cfg (rotMap s.cfg r x y) →
      ∃ m : Memory, exec (.setPixel r x y col) s = .next { s with fb := m, pc := s.pc + 1 } ∧ m.Wf ∧
        (∀ b, b < 8 → (m.read (pixelIndex s.cfg (rotMap s.cfg r x y)).toNat).getLsbD b =
          if b = pixelBit (rotMap s.cfg r x y)
          then onBit col ((s.fb.read (pixelIndex s.cfg (rotMap s.cfg r x y)).toNat).getLsbD b)
          else (s.fb.read (pixelIndex s.cfg (rotMap s.cfg r x y)).toNat).getLsbD b) ∧
        ∀ a, a ≠ (pixelIndex s.cfg (rotMap s.cfg r x y)).toNat → m.read a = s.fb.read a) ∧
    (¬OnPanel s.cfg (rotMap s.cfg r x y) → exec (.setPixel r x y col) s = .next { s with pc := s.pc + 1 })

/-- R132: reading back through the same rotated coordinate gives the colour just written (for INVERT, the other value),
every other bit of FB is unchanged, and off the panel there is no pixel and FB is unchanged. -/
def Obligations.SetPixelReadBack : Prop :=
  ∀ (s : State) (r : Rotation) (x y : Int) (col : Colour), s.cfg.Legal → s.fb.Wf →
    ∃ t, exec (.setPixel r x y col) s = .next t ∧
      (∀ old, pixelAt s.cfg s.fb r x y = some old →
        (col = .set → pixelAt t.cfg t.fb r x y = some true) ∧
        (col = .clear → pixelAt t.cfg t.fb r x y = some false) ∧
        (col = .invert → pixelAt t.cfg t.fb r x y = some (!old)) ∧
        ∀ (a b : Nat), b < 8 → ¬((a : Int) = pixelIndex s.cfg (rotMap s.cfg r x y) ∧ b = pixelBit (rotMap s.cfg r x y)) →
          (t.fb.read a).getLsbD b = (s.fb.read a).getLsbD b) ∧
      (¬OnPanel s.cfg (rotMap s.cfg r x y) → pixelAt t.cfg t.fb r x y = none ∧ t.fb = s.fb)

/-- R60: a request all of whose pixels are off the panel leaves every byte of FB as it was (and everything but `pc`); and no
request forms an index outside the framebuffer, so none faults. -/
def Obligations.OffPanelRequestsChangeNoByte : Prop :=
  (∀ (s : State) (r : Rotation) (x y : Int) (col : Colour), ¬OnPanel s.cfg (rotMap s.cfg r x y) →
    exec (.setPixel r x y col) s = .next { s with pc := s.pc + 1 }) ∧
  (∀ (s : State) (r : Rotation) (x y len : Int) (col : Colour),
    (∀ k, 0 ≤ k → k < len → ¬OnPanel s.cfg (rotMap s.cfg r (x + k) y)) →
    exec (.hline r x y len col) s = .next { s with pc := s.pc + 1 }) ∧
  (∀ (s : State) (r : Rotation) (x y len : Int) (col : Colour),
    (∀ k, 0 ≤ k → k < len → ¬OnPanel s.cfg (rotMap s.cfg r x (y + k))) →
    exec (.vline r x y len col) s = .next { s with pc := s.pc + 1 }) ∧
  ∀ (i : Instr) (s : State), s.cfg.Legal → exec i s ≠ .fault .indexOutsideFramebuffer

/-- R121, R123 to R126, R51: HLINE and VLINE complete and draw exactly their pixels, clipped to the panel, in all four rotations
and all three colours, for every start and length; `fb` and `pc` are all that changes. -/
def Obligations.LinesDrawExactlyTheirPixels : Prop :=
  ∀ (s : State) (r : Rotation) (x y len : Int) (col : Colour), s.cfg.Legal → s.fb.Wf →
    DrawsPixels (.hline r x y len col) s r len (fun k => (x + k, y)) col ∧
    DrawsPixels (.vline r x y len col) s r len (fun k => (x, y + k)) col

/-- R127: HLINE and VLINE leave FB exactly as the SETPIXELs of their pixels in turn leave it (none when `len <= 0`), in all
rotations and colours, INVERT included. -/
def Obligations.LinesEqualRepeatedSetPixel : Prop :=
  ∀ (s : State) (r : Rotation) (x y len : Int) (col : Colour), s.cfg.Legal → s.fb.Wf →
    (∃ t u, exec (.hline r x y len col) s = .next t ∧
      execAll ((List.range len.toNat).map fun k : Nat => .setPixel r (x + k) y col) s = .next u ∧ t.fb = u.fb) ∧
    ∃ t u, exec (.vline r x y len col) s = .next t ∧
      execAll ((List.range len.toNat).map fun k : Nat => .setPixel r x (y + k) col) s = .next u ∧ t.fb = u.fb

/-- R131: SET twice equals SET once, CLEAR twice equals CLEAR once, INVERT twice restores FB, for SETPIXEL, HLINE and VLINE
with the same operands; SET then CLEAR leaves the pixel off, CLEAR then SET leaves it on. -/
def Obligations.RepeatedDrawing : Prop :=
  ∀ (s : State) (r : Rotation) (x y len : Int), s.cfg.Legal → s.fb.Wf →
    (∀ draw ∈ [fun col => Instr.setPixel r x y col, fun col => Instr.hline r x y len col,
        fun col => Instr.vline r x y len col],
      (∀ col, col ≠ .invert → ∃ t u, exec (draw col) s = .next t ∧ exec (draw col) t = .next u ∧ u.fb = t.fb) ∧
      ∃ t u, exec (draw .invert) s = .next t ∧ exec (draw .invert) t = .next u ∧ u.fb = s.fb) ∧
    (OnPanel s.cfg (rotMap s.cfg r x y) →
      (∃ u, execAll [.setPixel r x y .set, .setPixel r x y .clear] s = .next u ∧
        pixelAt u.cfg u.fb r x y = some false) ∧
      ∃ u, execAll [.setPixel r x y .clear, .setPixel r x y .set] s = .next u ∧
        pixelAt u.cfg u.fb r x y = some true)

/-- R202: CLEAR completes in every phase, zeroes every byte of FB in place, emits nothing, and changes nothing but `fb` and
`pc`; CLEAR twice equals CLEAR once. -/
def Obligations.ClearZeroesTheFramebuffer : Prop :=
  ∀ s : State, s.fb.Wf → ∃ m : Memory, exec .clear s = .next { s with fb := m, pc := s.pc + 1 } ∧ m.Wf ∧
    (∀ a, a < s.cfg.fbLen → m.read a = 0x00) ∧ (∀ a, s.cfg.fbLen ≤ a → m.read a = s.fb.read a) ∧
    exec .clear { s with fb := m, pc := s.pc + 1 } = .next { s with fb := m, pc := s.pc + 1 + 1 }

/-! ## Transport -/

/-- R160: on the 2-wire link a command byte is a transaction of its own to ADDR, behind the command control byte; a two-byte
command is two transactions; TRACE is all that is written. -/
def Obligations.TwoWireCommandIsItsOwnTransaction : Prop :=
  ∀ (s : State) (b b' : Byte), s.cfg.variant = .twoWire → s.BusNeverStalls →
    sendCommands [b] s = { s with trace := s.trace ++
      [.start s.addr, .byte s.cfg.codes.ctrlCmd, .byte b, .stop] } ∧
    sendCommands [b, b'] s = { s with trace := s.trace ++
      [.start s.addr, .byte s.cfg.codes.ctrlCmd, .byte b, .stop,
       .start s.addr, .byte s.cfg.codes.ctrlCmd, .byte b', .stop] }

/-- R153, R155 to R157 (D14, D15, D16): the events of a command byte on the 4-wire link: DC low, CS low, the byte handed
whole to the engine or bit-banged most significant bit first, CS high. -/
def Obligations.FourWireCommandEvents : Prop :=
  ∀ (c : Cfg) (a : DevAddr) (b : Byte), c.variant = .fourWire →
    (c.hwAccel = true →
      sendCommand c a b = [.pin .dc false, .pin .cs false, .shift b, .pin .cs true]) ∧
    (c.hwAccel = false →
      sendCommand c a b = [.pin .dc false, .pin .cs false,
        .pin .clk false, .pin .mosi (b.getLsbD 7), .pin .clk true, .pin .clk false, .pin .mosi (b.getLsbD 6), .pin .clk true,
        .pin .clk false, .pin .mosi (b.getLsbD 5), .pin .clk true, .pin .clk false, .pin .mosi (b.getLsbD 4), .pin .clk true,
        .pin .clk false, .pin .mosi (b.getLsbD 3), .pin .clk true, .pin .clk false, .pin .mosi (b.getLsbD 2), .pin .clk true,
        .pin .clk false, .pin .mosi (b.getLsbD 1), .pin .clk true, .pin .clk false, .pin .mosi (b.getLsbD 0), .pin .clk true,
        .pin .cs true])

/-- R154, R266(a) (D14): a 4-wire data burst asserts chip-select once for the whole burst, with DC high, and writes neither
line in between; one event per byte when accelerated, 24 when bit-banged. -/
def Obligations.FourWireBurstHoldsChipSelect : Prop :=
  ∀ (c : Cfg) (a : DevAddr) (bs : List Byte), c.variant = .fourWire →
    ∃ bytes, sendData c a bs = [.pin .dc true, .pin .cs false] ++ bytes ++ [.pin .cs true] ∧
      (∀ v, LinkEvent.pin .cs v ∉ bytes ∧ LinkEvent.pin .dc v ∉ bytes) ∧
      bytes.length = (if c.hwAccel then 1 else 24) * bs.length

/-- R162, R166, R266(b) (D18, D19): a 2-wire data burst is cut into ceil(n/16) transactions to the device, each behind the
data control byte, every one but the last with exactly 16 payload bytes and none empty, the payloads in order being the
burst, between one RateMax and one RateRestore where the configuration asks for them. -/
def Obligations.TwoWireBurstIsSplitExactly : Prop :=
  ∀ (c : Cfg) (a : DevAddr) (bs : List Byte), c.variant = .twoWire →
    ∃ parts : List (List Byte),
      sendData c a bs = (if c.rateBoost then [.rateMax] else []) ++
        parts.flatMap (fun p => [.start a, .byte c.codes.ctrlData] ++ p.map .byte ++ [.stop]) ++
        (if c.rateBoost then [.rateRestore] else []) ∧
      parts.flatten = bs ∧ parts.length = (bs.length + 15) / 16 ∧
      (∀ p ∈ parts, 1 ≤ p.length ∧ p.length ≤ 16) ∧ ∀ p ∈ parts.dropLast, p.length = 16

/-- R170 to R172 ([derived] in the spec): the logical stream of one command byte is that byte, and of one data burst that
burst, on either link, bit-banged or accelerated, whatever the lines held before. -/
def Obligations.LogOfOneCall : Prop :=
  ∀ (c : Cfg) (a : DevAddr) (p : Pins),
    (∀ b, logFrom c (LogReader.start p) (sendCommand c a b) = [.command b]) ∧
    ∀ bs, bs ≠ [] → c.codes.ctrlCmd ≠ c.codes.ctrlData → logFrom c (LogReader.start p) (sendData c a bs) = [.data bs]

/-- R173 ([derived] in the spec): the same sequence of Transport calls gives the same logical stream on the 4-wire link
(bit-banged or accelerated) and on the 2-wire link, apart from the address of the open. The premises are that no burst is
empty, and that two bursts never follow each other directly where the 2-wire link marks no burst (RATE_BOOST off): there
R172 joins them. That an open between two bursts ends the first on the 2-wire link too is the model's choice (log entry 23). -/
def Obligations.LinksAreInterchangeable : Prop :=
  ∀ (c : Cfg) (accel : Bool) (a a' : DevAddr) (p p' : Pins) (calls : List Call),
    c.codes.ctrlCmd ≠ c.codes.ctrlData → Call.data [] ∉ calls →
    (c.rateBoost = true ∨ ∀ pre bs bs' post, calls ≠ pre ++ [.data bs, .data bs'] ++ post) →
    (logFrom { c with variant := .fourWire, hwAccel := accel } (LogReader.start p)
      (calls.flatMap (Call.events { c with variant := .fourWire, hwAccel := accel } a))).map LogItem.withoutAddr =
    (logFrom { c with variant := .twoWire } (LogReader.start p')
      (calls.flatMap (Call.events { c with variant := .twoWire } a'))).map LogItem.withoutAddr

/-- R203: SendSeq sends each byte through the Transport on its own: LOG gains one command item per byte, in order; on the
4-wire link each byte has its own chip-select pulse, on the 2-wire bus its own transaction with its own control byte. -/
def Obligations.SendSeqSendsEachByteOnItsOwn : Prop :=
  ∀ (c : Cfg) (a : DevAddr) (p : Pins) (bs : List Byte),
    logFrom c (LogReader.start p) (sendSeq c a bs) = bs.map .command ∧
    sendSeq c a bs = bs.flatMap (fun b => sendCommand c a b) ∧
    (c.variant = .fourWire →
      (sendSeq c a bs).count (.pin .cs false) = bs.length ∧ (sendSeq c a bs).count (.pin .cs true) = bs.length) ∧
    (c.variant = .twoWire →
      sendSeq c a bs = bs.flatMap (fun b => [.start a, .byte c.codes.ctrlCmd, .byte b, .stop]))

/-! ## Controller requests (on a bus that never stalls, R268) -/

/-- R191 to R193 (D12, D21, D24): BEGIN from Uninitialized completes: SUPPLY and ADDR are latched, the reset line is pulsed if
wired and requested, the link is opened, the 25 bytes of the initialisation sequence are sent, and PHASE is Ready; the
framebuffer and everything else keep their value. (That a line which no Pin event writes keeps its value in PINS through the
open is the model's choice, log entry 11.) -/
def Obligations.BeginBringsTheControllerUp : Prop :=
  ∀ (s : State) (vcc : Supply) (rst : Bool) (a : DevAddr), s.Inv → s.BusNeverStalls → s.phase = .uninitialized →
    let c := s.cfg
    let pulse := c.rstWired && rst
    let bytes : List Byte :=
      [c.codes.opClockDiv, c.codes.argClockDiv, c.codes.opMultiplex, BitVec.ofNat 8 (c.height - 1), c.codes.opOffset, 0x00,
       c.codes.opStartLine, c.codes.opChargePump,
       if vcc = .ext then c.codes.argChargePumpExt else c.codes.argChargePumpInt,
       c.codes.opMemMode, c.codes.argMemMode, c.codes.opSegRemap, c.codes.opComScan, c.codes.opComPins, c.comPins,
       c.codes.opContrast, if vcc = .ext then c.contrastExt else c.contrastInt,
       c.codes.opPrecharge, if vcc = .ext then c.codes.argPrechargeExt else c.codes.argPrechargeInt,
       c.codes.opVcomDetect, c.codes.argVcomDetect, c.codes.opResume, c.codes.opNormal, c.codes.opScrollOff,
       c.codes.opDisplayOn]
    let trace :=
      (if pulse then [.pin .rst c.rstLevels.l1, .delay 1, .pin .rst c.rstLevels.l2, .delay 10, .pin .rst c.rstLevels.l3]
        else []) ++
      [if c.variant = .fourWire then .open4 else .open2 a] ++ bytes.flatMap (sendCommand c a)
    bytes.length = 25 ∧
    exec (.begin vcc rst a) s = .next { s with
      phase := .ready, supply := vcc, addr := a, trace := trace,
      pins := pinsAfterTransfer c false c.codes.opDisplayOn
        { s.pins with rst := if pulse then c.rstLevels.l3 else s.pins.rst },
      pc := s.pc + 1 } ∧
    log c trace = (if pulse then [.pulse c.rstLevels.l1 c.rstLevels.l2 c.rstLevels.l3] else []) ++
      [.opened (if c.variant = .fourWire then none else some a)] ++ bytes.map .command

/-- R192 (D24): only a BEGIN that pulses writes the reset line; a BEGIN that pulsed and completed leaves it at L3, and no
other request writes it. -/
def Obligations.ResetLineIsWrittenByBeginOnly : Prop :=
  ∀ (i : Instr) (s t : State), s.stalled = false → exec i s = .next t →
    (∀ vcc a, i = .begin vcc true a → s.cfg.rstWired = true → t.stalled = false → t.pins.rst = s.cfg.rstLevels.l3) ∧
    ((∀ vcc a, i = .begin vcc true a → s.cfg.rstWired = false) → t.pins.rst = s.pins.rst)

/-- R194, R97: INVERT completes in Ready by sending one polarity command, and keeps no polarity bit. -/
def Obligations.InvertSendsOnePolarityCommand : Prop :=
  ∀ (s : State) (flag : Bool), s.Inv → s.BusNeverStalls → s.phase = .ready →
    SendsCommands (.invert flag) s [if flag then s.cfg.codes.opInverse else s.cfg.codes.opNormal]

/-- R195, R97 (D23): DIM completes in Ready by sending the contrast command with 0 (dimmed) or the fixed value of the latched
supply mode, and keeps no dimmed flag. -/
def Obligations.DimSendsTheContrastCommand : Prop :=
  ∀ (s : State) (flag : Bool), s.Inv → s.BusNeverStalls → s.phase = .ready →
    SendsCommands (.dim flag) s [s.cfg.codes.opContrast,
      if flag then 0x00 else if s.supply = .ext then s.cfg.codes.dimOffExt else s.cfg.codes.dimOffInt]

/-- R196, R197, R98 (D22, D32): SCROLLR and SCROLLL complete in Ready by sending their eight bytes, the bands as given. -/
def Obligations.HorizontalScrollsSendEightBytes : Prop :=
  ∀ (s : State) (first last : Byte), s.Inv → s.BusNeverStalls → s.phase = .ready →
    SendsCommands (.scrollR first last) s
      [s.cfg.codes.opHScrollR, s.cfg.codes.argScrollPad, first, s.cfg.codes.argScrollPad, last,
       s.cfg.codes.argHScrollT1, s.cfg.codes.argHScrollT2, s.cfg.codes.opScrollOn] ∧
    SendsCommands (.scrollL first last) s
      [s.cfg.codes.opHScrollL, s.cfg.codes.argScrollPad, first, s.cfg.codes.argScrollPad, last,
       s.cfg.codes.argHScrollT1, s.cfg.codes.argHScrollT2, s.cfg.codes.opScrollOn]

/-- R198, R199, R98, R100 (D22): SCROLLDR and SCROLLDL complete in Ready by sending their ten bytes, the vertical area
(offset 0, full height) first. -/
def Obligations.DiagonalScrollsSendTenBytes : Prop :=
  ∀ (s : State) (first last : Byte), s.Inv → s.BusNeverStalls → s.phase = .ready →
    SendsCommands (.scrollDR first last) s
      [s.cfg.codes.opVScrollArea, 0x00, BitVec.ofNat 8 s.cfg.height, s.cfg.codes.opDScrollR, s.cfg.codes.argScrollPad,
       first, s.cfg.codes.argScrollPad, last, s.cfg.codes.argDScrollVOff, s.cfg.codes.opScrollOn] ∧
    SendsCommands (.scrollDL first last) s
      [s.cfg.codes.opVScrollArea, 0x00, BitVec.ofNat 8 s.cfg.height, s.cfg.codes.opDScrollL, s.cfg.codes.argScrollPad,
       first, s.cfg.codes.argScrollPad, last, s.cfg.codes.argDScrollVOff, s.cfg.codes.opScrollOn]

/-- R200 (D22): STOPSCROLL completes in Ready by sending the scrolling-disabled code. -/
def Obligations.StopScrollSendsOneByte : Prop :=
  ∀ s : State, s.Inv → s.BusNeverStalls → s.phase = .ready →
    SendsCommands .stopScroll s [s.cfg.codes.opScrollOff]

/-- R201, R99, R54(b) (D33): FLUSH completes in Ready: six window bytes, then the whole framebuffer in ascending order as one
burst; LOG gains six command items and one data item; FB and everything else keep their value. -/
def Obligations.FlushSendsTheWindowAndTheFramebuffer : Prop :=
  ∀ (s : State) (bs : List Byte), s.Inv → s.BusNeverStalls → s.phase = .ready →
    bs.length = s.cfg.fbLen → (∀ i (h : i < bs.length), bs[i] = s.fb.read i) →
    let c := s.cfg
    let window : List Byte := [c.codes.opColAddr, 0x00, BitVec.ofNat 8 (c.width - 1),
      c.codes.opPageAddr, 0x00, BitVec.ofNat 8 (c.height / 8 - 1)]
    let trace := s.trace ++ window.flatMap (sendCommand c s.addr) ++ sendData c s.addr bs
    exec .flush s = .next { s with
      trace := trace, pins := pinsAfterTransfer c true (bs.getLastD 0) s.pins, pc := s.pc + 1 } ∧
    log c trace = log c s.trace ++ window.map .command ++ [.data bs]

/-- R201, R202 (the source's round trip, 95_test_vectors.md S3): CLEAR then FLUSH transmits a burst that is entirely zero
bytes, of length WIDTH*HEIGHT/8, whatever FB held. -/
def Obligations.ClearThenFlushSendsZeros : Prop :=
  ∀ s : State, s.Inv → s.BusNeverStalls → s.phase = .ready →
    ∃ t, execAll [.clear, .flush] s = .next t ∧
      log t.cfg t.trace = log s.cfg s.trace ++
        ([s.cfg.codes.opColAddr, 0x00, BitVec.ofNat 8 (s.cfg.width - 1),
          s.cfg.codes.opPageAddr, 0x00, BitVec.ofNat 8 (s.cfg.height / 8 - 1)] : List Byte).map .command ++
        [.data (List.replicate (s.cfg.width * s.cfg.height / 8) 0x00)]

/-- R204: no feature state: a Ready-only request writes none of PHASE, SUPPLY, ADDR and FB, and what a controller request
sends depends on nothing but the configuration, PHASE, SUPPLY, ADDR and (FLUSH) the framebuffer, so on no earlier INVERT,
DIM, scroll start or STOPSCROLL. -/
def Obligations.BytesSentDependOnNoEarlierFeature : Prop :=
  (∀ (j : Instr) (s t : State), j.readyOnly = true → exec j s = .next t →
    t.cfg = s.cfg ∧ t.phase = s.phase ∧ t.supply = s.supply ∧ t.addr = s.addr ∧ t.fb = s.fb) ∧
  ∀ (i : Instr) (s s' t : State), i.draws = false → s.cfg = s'.cfg → s.phase = s'.phase → s.supply = s'.supply →
    s.addr = s'.addr → (i = .flush → s.fb = s'.fb) → s.BusNeverStalls → s'.BusNeverStalls → exec i s = .next t →
    ∃ t' sent, exec i s' = .next t' ∧ t.trace = s.trace ++ sent ∧ t'.trace = s'.trace ++ sent

/-! ## Stalls and runs -/

/-- R268 (D26; log entries 7, 8 and 9): on a bus that accepts `n` more stallable events and then stalls for ever, a request
either ends exactly as on a bus that never stalls, or it hangs: the events before the stalled one have been emitted and are
not taken back, `pc` has not advanced, BEGIN has left PHASE at Initializing, and the machine never moves again. Which events
count towards `n` is R268's list; that RateMax and RateRestore are not among them is the model's choice (log entry 9). -/
def Obligations.StalledRequestKeepsWhatWasSent : Prop :=
  ∀ (i : Instr) (s t : State) (n : Nat), s.stalled = false → s.busAccepts = some n → exec i s = .next t →
    ∃ u, exec i { s with busAccepts := none } = .next u ∧ t.trace <+: u.trace ∧
      (t.stalled = false → t = { u with busAccepts := t.busAccepts }) ∧
      (t.stalled = true → t.pc = s.pc ∧ t.fb = s.fb ∧ t.busAccepts = some 0 ∧ t.trace.length < u.trace.length ∧
        (∃ sent, t.trace = s.trace ++ sent ∧ sent.countP LinkEvent.canStall = n) ∧
        (∀ vcc rst a, i = .begin vcc rst a → t.phase = .initializing) ∧ step t = .next t)

/-- R268, R272, R242: a run whose remaining requests only draw ends, in any phase and on any bus, with every request complete
and nothing sent. -/
def Obligations.DrawingProgramsRunToTheirEnd : Prop :=
  ∀ s : State, s.cfg.Legal → s.stalled = false → s.pc ≤ s.prog.length →
    (∀ k w, s.pc ≤ k → s.prog[k]? = some w → ∃ i, decode w = .ok i ∧ i.draws = true) →
    ∃ t : State, Host.Core.run Sys2Proof.core (s.prog.length - s.pc) s = .next t ∧ t.Ended ∧ t.trace = s.trace ∧
      t.phase = s.phase

/-- R262, R268, R272 (D2, D13, D26): from any reset state, on a bus that never stalls, a list of well-formed requests that
draws, then begins once, and then asks for anything but BEGIN, runs to its end: every request completes, PHASE is Ready, and
SUPPLY and ADDR are BEGIN's operands. -/
def Obligations.InitialisedProgramsRunToTheirEnd : Prop :=
  ∀ (s : State) (before after : List Instr) (vcc : Supply) (rst : Bool) (a : DevAddr), s.IsReset → s.BusNeverStalls →
    (∀ i ∈ before, i.WellFormed ∧ i.draws = true) →
    (∀ i ∈ after, i.WellFormed ∧ (i.draws = true ∨ i.readyOnly = true)) →
    s.prog = (before ++ .begin vcc rst a :: after).map encode →
    ∃ t : State, Host.Core.run Sys2Proof.core s.prog.length s = .next t ∧ t.Ended ∧ t.phase = .ready ∧
      t.supply = vcc ∧ t.addr = a

/-! ## The host's notation -/

/-- R90 (D29): DISPLAY expands to FLUSH, PIXEL to SETPIXEL with rotation 0, and HLINE and VLINE with four operands take
rotation 0, whatever the operand texts. -/
def Obligations.PseudoInstructionsExpand : Prop :=
  ∀ x y l c : Text,
    readRequest "DISPLAY".toList [] = readRequest "FLUSH".toList [] ∧
    readRequest "PIXEL".toList [x, y, c] = readRequest "SETPIXEL".toList ["0".toList, x, y, c] ∧
    readRequest "HLINE".toList [x, y, l, c] = readRequest "HLINE".toList ["0".toList, x, y, l, c] ∧
    readRequest "VLINE".toList [x, y, l, c] = readRequest "VLINE".toList ["0".toList, x, y, l, c]
end

