-- ==== Sys2Proof/Laws/Log.lean ====
section
/-!
SUPPORT. What the reader of a trace makes of each Transport call (41_transport.md R170 to R172): one command byte, one data
burst, one open, one reset pulse, read by a reader that is between transfers.
-/

namespace Sys2Proof.Machine.LogReader

variable (c : Cfg) (a : DevAddr) (r : LogReader)

/-- Between transfers, whatever the level of CS. -/
def Quiet (r : LogReader) : Prop := r.bits = [] ∧ r.bytes = [] ∧ r.txn = none ∧ r.rst = []

theorem idle_iff_quiet : r.Idle ↔ r.cs = true ∧ r.Quiet := by simp [Idle, Quiet]

theorem quiet_start (p : Pins) : (start p).Quiet := ⟨rfl, rfl, rfl, rfl⟩

@[simp] theorem readAll_nil : r.readAll c [] = r := rfl

@[simp] theorem readAll_cons (e : LinkEvent) (es : List LinkEvent) : r.readAll c (e :: es) = (r.read c e).readAll c es := rfl

theorem readAll_append (es fs : List LinkEvent) : r.readAll c (es ++ fs) = (r.readAll c es).readAll c fs := by
  simp [readAll, List.foldl_append]

/-- The items so far, the burst being collected ended. -/
def done (r : LogReader) : List LogItem := r.closeBurst.items

theorem done_eq : r.done = r.items ++ (if r.burst = [] then [] else [.data r.burst]) := by
  unfold done closeBurst
  split <;> simp

/-! ### One byte on the 4-wire link -/

theorem byteOfBits_getLsbD (b : Byte) :
    byteOfBits [b.getLsbD 7, b.getLsbD 6, b.getLsbD 5, b.getLsbD 4, b.getLsbD 3, b.getLsbD 2, b.getLsbD 1, b.getLsbD 0] = b := by
  revert b; decide

/-- A bit on the wires: one rising clock edge shifts it in. -/
theorem readAll_bit (v : Bool) (hcs : r.cs = false) :
    r.readAll c [.pin .clk false, .pin .mosi v, .pin .clk true] =
      { ({ r with clk := false, mosi := v } : LogReader).shiftIn with clk := true } := by
  simp [read, pin, hcs]

/-- A bit-banged byte is read as that byte, tagged with DC. -/
theorem readAll_bitBang (b : Byte) (hcs : r.cs = false) (hb : r.bits = []) :
    r.readAll c (bitBang b) =
      { r with clk := true, mosi := b.getLsbD 0, bytes := r.bytes ++ [(r.dc, b)] } := by
  have h := byteOfBits_getLsbD b
  simp only [bitBang, List.flatMap_cons, List.flatMap_nil, List.append_nil, readAll_append]
  obtain ⟨cs, dc, clk, mosi, bits, bytes, txn, burst, rst, items⟩ := r
  obtain rfl : cs = false := hcs
  obtain rfl : bits = [] := hb
  simpa [shiftIn, read, pin] using h

/-- The line levels a transferred byte leaves behind. -/
def afterByte (b : Byte) : LogReader :=
  { r with clk := if c.hwAccel then r.clk else true, mosi := if c.hwAccel then r.mosi else b.getLsbD 0,
           bytes := r.bytes ++ [(r.dc, b)] }

theorem readAll_xferByte (b : Byte) (hcs : r.cs = false) (hb : r.bits = []) :
    r.readAll c (xferByte c b) = r.afterByte c b := by
  unfold xferByte afterByte
  cases h : c.hwAccel
  · simpa using readAll_bitBang c r b hcs hb
  · simp [read, hcs]

/-- Bytes under one chip-select assertion, in order. -/
theorem readAll_xferBytes (bs : List Byte) (hcs : r.cs = false) (hb : r.bits = []) :
    ∃ clk mosi, r.readAll c (bs.flatMap (xferByte c)) =
      { r with clk := clk, mosi := mosi, bytes := r.bytes ++ bs.map (fun b => (r.dc, b)) } := by
  induction bs generalizing r with
  | nil => exact ⟨r.clk, r.mosi, by simp⟩
  | cons b bs ih =>
    obtain ⟨clk, mosi, h⟩ := ih (r.afterByte c b) hcs hb
    refine ⟨clk, mosi, ?_⟩
    rw [List.flatMap_cons, readAll_append, readAll_xferByte c r b hcs hb, h]
    simp [afterByte]

/-- A run of bytes tagged DC = 1 is one burst. -/
theorem itemsOf_data (bs : List Byte) (h : bs ≠ []) : itemsOf (bs.map fun b => (true, b)) = [.data bs] := by
  induction bs with
  | nil => exact absurd rfl h
  | cons b bs ih =>
    cases bs with
    | nil => rfl
    | cons b' bs =>
      have h := ih (by simp)
      simp only [List.map_cons] at h ⊢
      unfold itemsOf
      rw [h]

/-! ### A 2-wire transaction -/

theorem readAll_bytes (bs pre : List Byte) (h : r.txn = some pre) :
    r.readAll c (bs.map .byte) = { r with txn := some (pre ++ bs) } := by
  induction bs generalizing r pre with
  | nil => simp [← h]
  | cons b bs ih =>
    rw [List.map_cons, readAll_cons, ih (r.read c (.byte b)) (pre ++ [b]) (by simp [read, h])]
    simp [read]

theorem readAll_transaction (ctrl : Byte) (payload : List Byte) :
    r.readAll c (transaction a ctrl payload) =
      { ({ r with txn := some (ctrl :: payload) } : LogReader).endTransaction c (ctrl :: payload) with txn := none } := by
  simp only [transaction, List.cons_append, List.nil_append, readAll_cons, readAll_append]
  rw [readAll_bytes c _ payload [ctrl] (by simp [read])]
  simp [read]

/-- Data transactions of 1 to 16 bytes each join the burst being collected. -/
theorem readAll_dataTransactions (hc : c.codes.ctrlCmd ≠ c.codes.ctrlData) (parts : List (List Byte))
    (hp : ∀ p ∈ parts, 1 ≤ p.length ∧ p.length ≤ 16) (ht : r.txn = none) :
    r.readAll c (parts.flatMap (transaction a c.codes.ctrlData)) = { r with burst := r.burst ++ parts.flatten } := by
  induction parts generalizing r with
  | nil => simp
  | cons p parts ih =>
    have h1 := hp p (by simp)
    have h2 : r.readAll c (transaction a c.codes.ctrlData p) = { r with burst := r.burst ++ p } := by
      rw [readAll_transaction]
      simp only [endTransaction, if_neg (Ne.symm hc), if_true, if_pos h1]
      cases r; simp_all
    rw [List.flatMap_cons, readAll_append, h2, ih _ (fun q hq => hp q (by simp [hq])) (by exact ht)]
    simp

/-! ### The calls -/

/-- CS after a call: the 4-wire link leaves it high, the 2-wire link does not drive it. -/
def csAfter (c : Cfg) (cs : Level) : Level :=
  match c.variant with
  | .fourWire => true
  | .twoWire => cs

/-- One command byte is read as one command item, which ends the burst before it. -/
theorem readAll_sendCommand (b : Byte) (h : r.Quiet) :
    let r' := r.readAll c (sendCommand c a b)
    r'.Quiet ∧ r'.cs = csAfter c r.cs ∧ r'.burst = [] ∧ r'.items = r.done ++ [.command b] := by
  obtain ⟨h1, h2, h3, h4⟩ := h
  cases hv : c.variant
  · simp only [sendCommand, hv, sendCommand4W, readAll_append, csAfter]
    rw [readAll_xferByte c _ b (by simp [read, pin]) (by simpa [read, pin] using h1)]
    simp only [readAll_cons, readAll_nil, read, pin, afterByte, h2]
    simp [Quiet, itemsOf, add, done, h1, h3, h4, closeBurst]
    split <;> simp_all
  · simp only [sendCommand, hv, sendCommand2W, readAll_transaction, csAfter]
    simp [endTransaction, Quiet, add, done, h1, h2, h4, closeBurst]
    split <;> simp_all

theorem payloads_parts (bs : List Byte) : ∀ p ∈ payloads bs, 1 ≤ p.length ∧ p.length ≤ 16 := by
  intro p hp
  obtain ⟨k, hk, rfl⟩ := List.mem_map.1 hp
  have := List.mem_range.1 hk
  rw [List.length_take, List.length_drop]
  omega

/-- The sub-transactions carry the burst, in order, none of it twice or left out (R162). -/
theorem payloads_flatten (bs : List Byte) : (payloads bs).flatten = bs := by
  have key : ∀ n : Nat, ((List.range n).map fun k => (bs.drop (16 * k)).take 16).flatten = bs.take (16 * n) := by
    intro n
    induction n with
    | zero => simp
    | succ n ih =>
      rw [List.range_succ, List.map_append, List.flatten_append, ih, show 16 * (n + 1) = 16 * n + 16 by omega,
        List.take_add]
      simp
  unfold payloads
  rw [key, List.take_of_length_le (by omega)]

/-- One burst on the 4-wire link is read as one data item. -/
theorem readAll_sendData4W (hv : c.variant = .fourWire) (bs : List Byte) (hb : bs ≠ []) (h : r.Quiet) :
    let r' := r.readAll c (sendData c a bs)
    r'.Quiet ∧ r'.cs = true ∧ r'.burst = [] ∧ r'.items = r.done ++ [.data bs] := by
  obtain ⟨h1, h2, h3, h4⟩ := h
  simp only [sendData, hv, sendData4W, readAll_append]
  obtain ⟨clk, mosi, hx⟩ := readAll_xferBytes c (r.readAll c [.pin .dc true, .pin .cs false]) bs
    (by simp [read, pin]) (by simpa [read, pin] using h1)
  rw [hx]
  simp only [readAll_cons, readAll_nil, read, pin]
  simp [Quiet, add, done, h1, h2, h3, h4, closeBurst, itemsOf_data bs hb]
  split <;> simp_all

/-- One burst on the 2-wire link: its bytes join the burst being collected, which RATE_BOOST ends on both sides. -/
theorem readAll_sendData2W (hc : c.codes.ctrlCmd ≠ c.codes.ctrlData) (hv : c.variant = .twoWire) (bs : List Byte)
    (h : r.Quiet) :
    let r' := r.readAll c (sendData c a bs)
    r'.Quiet ∧ r'.cs = r.cs ∧
      (c.rateBoost = false → r'.items = r.items ∧ r'.burst = r.burst ++ bs) ∧
      (c.rateBoost = true → bs ≠ [] → r'.items = r.done ++ [.data bs] ∧ r'.burst = []) := by
  obtain ⟨h1, h2, h3, h4⟩ := h
  have hp := payloads_parts bs
  have hf := payloads_flatten bs
  simp only [sendData, hv, sendData2W, readAll_append]
  cases hr : c.rateBoost
  · simp only [Bool.false_eq_true, if_false, readAll_nil]
    rw [readAll_dataTransactions c a r hc _ hp h3, hf]
    simp [Quiet, h1, h2, h3, h4]
  · simp only [if_true, readAll_cons, readAll_nil, read]
    rw [readAll_dataTransactions c a _ hc _ hp (by unfold closeBurst; split <;> exact h3), hf]
    unfold done closeBurst
    split <;> split <;> simp_all [Quiet]

/-- Opening is read as one open item. -/
theorem readAll_openLink (h : r.Quiet) :
    let r' := r.readAll c (openLink c a)
    r'.Quiet ∧ r'.cs = r.cs ∧ r'.burst = [] ∧
      r'.items = r.done ++ [.opened (if c.variant = .fourWire then none else some a)] := by
  obtain ⟨h1, h2, h3, h4⟩ := h
  cases hv : c.variant <;> simp [openLink, hv, read, add, done, closeBurst, Quiet] <;> split <;> simp_all

/-- The reset pulse is read as one pulse item. -/
theorem readAll_resetPulse (h : r.Quiet) :
    let r' := r.readAll c (resetPulse c)
    r'.Quiet ∧ r'.cs = r.cs ∧ r'.burst = [] ∧
      r'.items = r.done ++ [.pulse c.rstLevels.l1 c.rstLevels.l2 c.rstLevels.l3] := by
  obtain ⟨h1, h2, h3, h4⟩ := h
  simp [resetPulse, read, pin, add, done, closeBurst, Quiet, h4]
  split <;> simp_all

/-- A command sequence is read as its bytes, one command item each. -/
theorem readAll_sendSeq (bs : List Byte) (h : r.Quiet) :
    let r' := r.readAll c (sendSeq c a bs)
    r'.Quiet ∧ r'.cs = (if bs = [] then r.cs else csAfter c r.cs) ∧ r'.burst = (if bs = [] then r.burst else []) ∧
      r'.done = r.done ++ bs.map .command := by
  induction bs generalizing r with
  | nil => exact ⟨h, rfl, rfl, by simp [sendSeq]⟩
  | cons b bs ih =>
    obtain ⟨q, hcs, hb, hi⟩ := readAll_sendCommand c a r b h
    obtain ⟨q', hcs', hb', hi'⟩ := ih (r.readAll c (sendCommand c a b)) q
    simp only [sendSeq, List.flatMap_cons, readAll_append] at q' hcs' hb' hi' ⊢
    refine ⟨q', ?_, ?_, ?_⟩
    · rw [hcs', hcs]
      split <;> simp [csAfter]
      split <;> rfl
    · rw [hb', hb]
      split <;> rfl
    · rw [hi', done_eq, hi, hb]
      simp

end Sys2Proof.Machine.LogReader
end

