-- ==== Sys2Proof/Laws/Memory.lean ====
section
/-!
SUPPORT. The framebuffer memory: reading after writing (20_memory.md R57), the canonical form kept by every memory
operation, and that canonical memories with the same bytes are the same data.
-/

namespace Sys2Proof.Machine.Memory

theorem read_cons_entry (a : Nat) (v : Byte) (m : Memory) (b : Nat) :
    read ((a, v) :: m) b = if b = a then v else read m b := rfl

/-- An index that nothing lists reads as unlisted. -/
theorem read_of_not_listed {m : Memory} {a : Nat} (h : ∀ e ∈ m, e.1 ≠ a) : read m a = unlisted := by
  induction m with
  | nil => rfl
  | cons e m ih =>
    obtain ⟨b, v⟩ := e
    have hb : a ≠ b := fun hab => h (b, v) (by simp) hab.symm
    rw [read_cons_entry, if_neg hb]
    exact ih fun e he => h e (List.mem_cons_of_mem _ he)

theorem read_cons {a : Nat} {m : Memory} (h : ∀ e ∈ m, a < e.1) (v : Byte) (b : Nat) :
    read (cons a v m) b = if b = a then v else read m b := by
  unfold cons
  split
  · split
    · subst_vars
      exact read_of_not_listed fun e he => (h e he).ne'
    · rfl
  · rw [read_cons_entry]

/-- Reading after writing: the written index gives the value written, every other index what it gave before. -/
theorem read_write {m : Memory} (h : m.Pairwise (fun a b => a.1 < b.1)) (a : Nat) (v : Byte) (b : Nat) :
    read (write m a v) b = if b = a then v else read m b := by
  induction m with
  | nil => exact read_cons (by simp) v b
  | cons e m ih =>
    obtain ⟨c, u⟩ := e
    have hc : ∀ e ∈ m, c < e.1 := fun e he => List.rel_of_pairwise_cons h he
    unfold write
    split
    · rename_i hac
      refine read_cons ?_ v b
      intro e he
      rcases List.mem_cons.1 he with rfl | he
      · exact hac
      · exact hac.trans (hc e he)
    · split
      · rename_i hac
        subst hac
        rw [read_cons hc, read_cons_entry]
        split <;> simp_all
      · rw [read_cons_entry, read_cons_entry, ih h.of_cons]
        split
        · rw [if_neg (by omega)]
        · rfl

/-- The entries of a write are old entries, or the new one where it must be listed. -/
theorem mem_write {m : Memory} {a : Nat} {v : Byte} {e : Host.Cell} (h : e ∈ write m a v) :
    e ∈ m ∨ e = (a, v) ∧ v ≠ unlisted := by
  induction m with
  | nil =>
    simp only [write, cons] at h
    split at h <;> simp_all
  | cons f m ih =>
    obtain ⟨c, u⟩ := f
    simp only [write, cons] at h
    repeat' split at h
    all_goals simp_all
    all_goals tauto

theorem write_within {m : Memory} {n a : Nat} (h : m.Within n) (ha : a < n) (v : Byte) : (write m a v).Within n := by
  intro e he
  rcases mem_write he with he | ⟨rfl, -⟩
  · exact h e he
  · exact ha

/-- A write keeps the canonical form. -/
theorem write_wf {m : Memory} (h : m.Wf) (a : Nat) (v : Byte) : (write m a v).Wf := by
  refine ⟨?_, ?_⟩
  · obtain ⟨hs, -⟩ := h
    induction m with
    | nil =>
      simp only [write, cons]
      split <;> simp
    | cons f m ih =>
      obtain ⟨c, u⟩ := f
      obtain ⟨hc, hm⟩ := List.pairwise_cons.1 hs
      simp only [write, cons]
      split
      · split
        · exact hs
        · refine List.pairwise_cons.2 ⟨?_, hs⟩
          intro e he
          rcases List.mem_cons.1 he with rfl | he
          · assumption
          · exact lt_trans ‹a < c› (hc e he)
      · split
        · split
          · exact hm
          · subst_vars
            exact List.pairwise_cons.2 ⟨hc, hm⟩
        · refine List.pairwise_cons.2 ⟨?_, ih hm⟩
          intro e he
          rcases mem_write he with he | ⟨rfl, -⟩
          · exact hc e he
          · show c < a
            omega
  · intro e he
    rcases mem_write he with he | ⟨rfl, hv⟩
    · exact h.2 e he
    · exact hv

/-- In a canonical memory a listed index is read as listed, so not as unlisted. -/
theorem read_mem {m : Memory} (h : m.Wf) {e : Host.Cell} (he : e ∈ m) : read m e.1 = e.2 := by
  obtain ⟨hs, -⟩ := h
  induction m with
  | nil => simp at he
  | cons f m ih =>
    obtain ⟨c, u⟩ := f
    obtain ⟨hc, hm⟩ := List.pairwise_cons.1 hs
    rw [read_cons_entry]
    rcases List.mem_cons.1 he with rfl | he
    · simp
    · rw [if_neg (hc e he).ne', ih he hm]

/-- Two canonical memories that hold the same bytes are the same data. -/
theorem ext_of_read {m n : Memory} (hm : m.Wf) (hn : n.Wf) (h : ∀ a, read m a = read n a) : m = n := by
  have key : ∀ {m n : Memory}, m.Wf → n.Wf → (∀ a, read m a = read n a) → ∀ e ∈ m, e ∈ n := by
    intro m n hm hn h e he
    have hr : read n e.1 = e.2 := (h e.1).symm.trans (read_mem hm he)
    by_contra hne
    have hnot : ∀ f ∈ n, f.1 ≠ e.1 := by
      intro f hf hfe
      have := read_mem hn hf
      rw [hfe, hr] at this
      exact hne (by rw [show e = f from Prod.ext hfe.symm this]; exact hf)
    exact hm.2 e he (hr.symm.trans (read_of_not_listed hnot))
  have nodup : ∀ {m : Memory}, m.Wf → m.Nodup := fun hm => hm.1.imp fun hab => by
    intro heq; subst heq; exact lt_irrefl _ hab
  have hperm : m.Perm n := (List.perm_ext_iff_of_nodup (nodup hm) (nodup hn)).2 fun e =>
    ⟨key hm hn h e, key hn hm (fun a => (h a).symm) e⟩
  exact hperm.eq_of_pairwise (fun a b _ _ h1 h2 => absurd (lt_trans h1 h2) (lt_irrefl _)) hm.1 hn.1

/-! ### A write per index of a range -/

/-- Writing `f i` at every `i < n`. -/
def fill (f : Nat → Byte) (n : Nat) (m : Memory) : Memory :=
  (List.range n).foldl (fun m i => m.write i (f i)) m

theorem fill_succ (f : Nat → Byte) (n : Nat) (m : Memory) : fill f (n + 1) m = (fill f n m).write n (f n) := by
  simp [fill, List.range_succ]

theorem fill_wf (f : Nat → Byte) (n : Nat) {m : Memory} (h : m.Wf) : (fill f n m).Wf := by
  induction n with
  | zero => simpa [fill] using h
  | succ n ih => rw [fill_succ]; exact write_wf ih n (f n)

theorem read_fill (f : Nat → Byte) (n : Nat) {m : Memory} (h : m.Wf) (a : Nat) :
    read (fill f n m) a = if a < n then f a else read m a := by
  induction n with
  | zero => simp [fill]
  | succ n ih =>
    rw [fill_succ, read_write (fill_wf f n h).1, ih]
    split
    · subst_vars; simp
    · split
      · rw [if_pos (by omega)]
      · rw [if_neg (by omega)]

theorem fill_within (f : Nat → Byte) {n k : Nat} (hn : n ≤ k) {m : Memory} (h : m.Within k) : (fill f n m).Within k := by
  induction n with
  | zero => simpa [fill] using h
  | succ n ih => rw [fill_succ]; exact write_within (ih (by omega)) (by omega) _

theorem zeroFill_eq_fill (n : Nat) (m : Memory) : zeroFill n m = fill (fun _ => 0x00) n m := rfl

theorem ofBytes_eq_fill (n : Nat) (bs : List Byte) : ofBytes n bs = fill (fun i => bs.getD i 0x00) n [] := rfl

/-- CLEAR's memory: zero below `n`, unchanged from `n` on. -/
theorem read_zeroFill (n : Nat) {m : Memory} (h : m.Wf) (a : Nat) :
    read (zeroFill n m) a = if a < n then 0x00 else read m a := read_fill _ n h a

theorem zeroFill_wf (n : Nat) {m : Memory} (h : m.Wf) : (zeroFill n m).Wf := fill_wf _ n h

theorem zeroFill_within (n : Nat) {m : Memory} (h : m.Within n) : (zeroFill n m).Within n := fill_within _ le_rfl h

theorem nil_wf : Wf [] := ⟨List.Pairwise.nil, by simp⟩

theorem ofBytes_wf (n : Nat) (bs : List Byte) : (ofBytes n bs).Wf := fill_wf _ n nil_wf

theorem ofBytes_within (n : Nat) (bs : List Byte) : (ofBytes n bs).Within n := fill_within _ le_rfl (by intro e he; simp at he)

theorem read_ofBytes (n : Nat) (bs : List Byte) (a : Nat) :
    read (ofBytes n bs) a = if a < n then bs.getD a 0x00 else unlisted := by
  rw [ofBytes_eq_fill, read_fill _ n nil_wf]; rfl

end Sys2Proof.Machine.Memory
end

