-- ==== Sys2Proof/Laws/State.lean ====
section
/-!
SUPPORT. One lemma per field per update of the state, true by definition, so that no proof unfolds a record update; and the
conditional updates `finish` and `becomeReady` by cases.
-/

namespace Sys2Proof.Machine

variable (s : State)

/-! ### `withFb` -/

@[simp] theorem withFb_cfg (m : Memory) : (s.withFb m).cfg = s.cfg := rfl
@[simp] theorem withFb_prog (m : Memory) : (s.withFb m).prog = s.prog := rfl
@[simp] theorem withFb_pc (m : Memory) : (s.withFb m).pc = s.pc := rfl
@[simp] theorem withFb_fb (m : Memory) : (s.withFb m).fb = m := rfl
@[simp] theorem withFb_phase (m : Memory) : (s.withFb m).phase = s.phase := rfl
@[simp] theorem withFb_supply (m : Memory) : (s.withFb m).supply = s.supply := rfl
@[simp] theorem withFb_addr (m : Memory) : (s.withFb m).addr = s.addr := rfl
@[simp] theorem withFb_pins (m : Memory) : (s.withFb m).pins = s.pins := rfl
@[simp] theorem withFb_rateSaved (m : Memory) : (s.withFb m).rateSaved = s.rateSaved := rfl
@[simp] theorem withFb_trace (m : Memory) : (s.withFb m).trace = s.trace := rfl
@[simp] theorem withFb_busAccepts (m : Memory) : (s.withFb m).busAccepts = s.busAccepts := rfl
@[simp] theorem withFb_stalled (m : Memory) : (s.withFb m).stalled = s.stalled := rfl

/-! ### `advance` -/

@[simp] theorem advance_cfg : s.advance.cfg = s.cfg := rfl
@[simp] theorem advance_prog : s.advance.prog = s.prog := rfl
@[simp] theorem advance_pc : s.advance.pc = s.pc + 1 := rfl
@[simp] theorem advance_fb : s.advance.fb = s.fb := rfl
@[simp] theorem advance_phase : s.advance.phase = s.phase := rfl
@[simp] theorem advance_supply : s.advance.supply = s.supply := rfl
@[simp] theorem advance_addr : s.advance.addr = s.addr := rfl
@[simp] theorem advance_pins : s.advance.pins = s.pins := rfl
@[simp] theorem advance_rateSaved : s.advance.rateSaved = s.rateSaved := rfl
@[simp] theorem advance_trace : s.advance.trace = s.trace := rfl
@[simp] theorem advance_busAccepts : s.advance.busAccepts = s.busAccepts := rfl
@[simp] theorem advance_stalled : s.advance.stalled = s.stalled := rfl

/-! ### `record` -/

@[simp] theorem record_cfg (e : LinkEvent) : (s.record e).cfg = s.cfg := rfl
@[simp] theorem record_prog (e : LinkEvent) : (s.record e).prog = s.prog := rfl
@[simp] theorem record_pc (e : LinkEvent) : (s.record e).pc = s.pc := rfl
@[simp] theorem record_fb (e : LinkEvent) : (s.record e).fb = s.fb := rfl
@[simp] theorem record_phase (e : LinkEvent) : (s.record e).phase = s.phase := rfl
@[simp] theorem record_supply (e : LinkEvent) : (s.record e).supply = s.supply := rfl
@[simp] theorem record_addr (e : LinkEvent) : (s.record e).addr = s.addr := rfl
@[simp] theorem record_pins (e : LinkEvent) : (s.record e).pins = s.pins.after e := rfl
@[simp] theorem record_rateSaved (e : LinkEvent) : (s.record e).rateSaved = s.rateSaved.after e := rfl
@[simp] theorem record_trace (e : LinkEvent) : (s.record e).trace = s.trace ++ [e] := rfl
@[simp] theorem record_busAccepts (e : LinkEvent) : (s.record e).busAccepts = s.busAccepts := rfl
@[simp] theorem record_stalled (e : LinkEvent) : (s.record e).stalled = s.stalled := rfl

/-! ### `withBus` -/

@[simp] theorem withBus_cfg (n : Option Nat) : (s.withBus n).cfg = s.cfg := rfl
@[simp] theorem withBus_prog (n : Option Nat) : (s.withBus n).prog = s.prog := rfl
@[simp] theorem withBus_pc (n : Option Nat) : (s.withBus n).pc = s.pc := rfl
@[simp] theorem withBus_fb (n : Option Nat) : (s.withBus n).fb = s.fb := rfl
@[simp] theorem withBus_phase (n : Option Nat) : (s.withBus n).phase = s.phase := rfl
@[simp] theorem withBus_supply (n : Option Nat) : (s.withBus n).supply = s.supply := rfl
@[simp] theorem withBus_addr (n : Option Nat) : (s.withBus n).addr = s.addr := rfl
@[simp] theorem withBus_pins (n : Option Nat) : (s.withBus n).pins = s.pins := rfl
@[simp] theorem withBus_rateSaved (n : Option Nat) : (s.withBus n).rateSaved = s.rateSaved := rfl
@[simp] theorem withBus_trace (n : Option Nat) : (s.withBus n).trace = s.trace := rfl
@[simp] theorem withBus_busAccepts (n : Option Nat) : (s.withBus n).busAccepts = n := rfl
@[simp] theorem withBus_stalled (n : Option Nat) : (s.withBus n).stalled = s.stalled := rfl

/-! ### `stall` -/

@[simp] theorem stall_cfg : s.stall.cfg = s.cfg := rfl
@[simp] theorem stall_prog : s.stall.prog = s.prog := rfl
@[simp] theorem stall_pc : s.stall.pc = s.pc := rfl
@[simp] theorem stall_fb : s.stall.fb = s.fb := rfl
@[simp] theorem stall_phase : s.stall.phase = s.phase := rfl
@[simp] theorem stall_supply : s.stall.supply = s.supply := rfl
@[simp] theorem stall_addr : s.stall.addr = s.addr := rfl
@[simp] theorem stall_pins : s.stall.pins = s.pins := rfl
@[simp] theorem stall_rateSaved : s.stall.rateSaved = s.rateSaved := rfl
@[simp] theorem stall_trace : s.stall.trace = s.trace := rfl
@[simp] theorem stall_busAccepts : s.stall.busAccepts = s.busAccepts := rfl
@[simp] theorem stall_stalled : s.stall.stalled = true := rfl

/-! ### `latch` -/

@[simp] theorem latch_cfg (v : Supply) (a : DevAddr) : (s.latch v a).cfg = s.cfg := rfl
@[simp] theorem latch_prog (v : Supply) (a : DevAddr) : (s.latch v a).prog = s.prog := rfl
@[simp] theorem latch_pc (v : Supply) (a : DevAddr) : (s.latch v a).pc = s.pc := rfl
@[simp] theorem latch_fb (v : Supply) (a : DevAddr) : (s.latch v a).fb = s.fb := rfl
@[simp] theorem latch_phase (v : Supply) (a : DevAddr) : (s.latch v a).phase = .initializing := rfl
@[simp] theorem latch_supply (v : Supply) (a : DevAddr) : (s.latch v a).supply = v := rfl
@[simp] theorem latch_addr (v : Supply) (a : DevAddr) : (s.latch v a).addr = a := rfl
@[simp] theorem latch_pins (v : Supply) (a : DevAddr) : (s.latch v a).pins = s.pins := rfl
@[simp] theorem latch_rateSaved (v : Supply) (a : DevAddr) : (s.latch v a).rateSaved = s.rateSaved := rfl
@[simp] theorem latch_trace (v : Supply) (a : DevAddr) : (s.latch v a).trace = s.trace := rfl
@[simp] theorem latch_busAccepts (v : Supply) (a : DevAddr) : (s.latch v a).busAccepts = s.busAccepts := rfl
@[simp] theorem latch_stalled (v : Supply) (a : DevAddr) : (s.latch v a).stalled = s.stalled := rfl

/-! ### The ends of a request -/

@[simp] theorem finish_of_running (h : s.stalled = false) : s.finish = s.advance := by simp [State.finish, h]

@[simp] theorem finish_of_stalled (h : s.stalled = true) : s.finish = s := by simp [State.finish, h]

@[simp] theorem becomeReady_of_running (h : s.stalled = false) : s.becomeReady = { s with phase := .ready } := by
  simp [State.becomeReady, h]

@[simp] theorem becomeReady_of_stalled (h : s.stalled = true) : s.becomeReady = s := by simp [State.becomeReady, h]

@[simp] theorem finish_cfg : s.finish.cfg = s.cfg := by unfold State.finish; split <;> rfl
@[simp] theorem finish_prog : s.finish.prog = s.prog := by unfold State.finish; split <;> rfl
@[simp] theorem finish_fb : s.finish.fb = s.fb := by unfold State.finish; split <;> rfl
@[simp] theorem finish_phase : s.finish.phase = s.phase := by unfold State.finish; split <;> rfl
@[simp] theorem finish_supply : s.finish.supply = s.supply := by unfold State.finish; split <;> rfl
@[simp] theorem finish_addr : s.finish.addr = s.addr := by unfold State.finish; split <;> rfl
@[simp] theorem finish_pins : s.finish.pins = s.pins := by unfold State.finish; split <;> rfl
@[simp] theorem finish_rateSaved : s.finish.rateSaved = s.rateSaved := by unfold State.finish; split <;> rfl
@[simp] theorem finish_trace : s.finish.trace = s.trace := by unfold State.finish; split <;> rfl
@[simp] theorem finish_busAccepts : s.finish.busAccepts = s.busAccepts := by unfold State.finish; split <;> rfl
@[simp] theorem finish_stalled : s.finish.stalled = s.stalled := by unfold State.finish; split <;> rfl

@[simp] theorem becomeReady_cfg : s.becomeReady.cfg = s.cfg := by unfold State.becomeReady; split <;> rfl
@[simp] theorem becomeReady_prog : s.becomeReady.prog = s.prog := by unfold State.becomeReady; split <;> rfl
@[simp] theorem becomeReady_pc : s.becomeReady.pc = s.pc := by unfold State.becomeReady; split <;> rfl
@[simp] theorem becomeReady_fb : s.becomeReady.fb = s.fb := by unfold State.becomeReady; split <;> rfl
@[simp] theorem becomeReady_supply : s.becomeReady.supply = s.supply := by unfold State.becomeReady; split <;> rfl
@[simp] theorem becomeReady_addr : s.becomeReady.addr = s.addr := by unfold State.becomeReady; split <;> rfl
@[simp] theorem becomeReady_pins : s.becomeReady.pins = s.pins := by unfold State.becomeReady; split <;> rfl
@[simp] theorem becomeReady_rateSaved : s.becomeReady.rateSaved = s.rateSaved := by unfold State.becomeReady; split <;> rfl
@[simp] theorem becomeReady_trace : s.becomeReady.trace = s.trace := by unfold State.becomeReady; split <;> rfl
@[simp] theorem becomeReady_busAccepts : s.becomeReady.busAccepts = s.busAccepts := by unfold State.becomeReady; split <;> rfl
@[simp] theorem becomeReady_stalled : s.becomeReady.stalled = s.stalled := by unfold State.becomeReady; split <;> rfl

/-- What `finish` does to `pc` (R27, R268). -/
theorem finish_pc : s.finish.pc = if s.stalled then s.pc else s.pc + 1 := by
  unfold State.finish; split <;> rfl

/-- What `becomeReady` does to PHASE (R191, R268). -/
theorem becomeReady_phase : s.becomeReady.phase = if s.stalled then s.phase else .ready := by
  unfold State.becomeReady; split <;> rfl

end Sys2Proof.Machine
end

