-- ==== Sys2Proof/Laws/Ops.lean ====
section
/-!
SUPPORT. One lemma per shared operation that says everything it can do: framebuffer access, emitting link events, the
phase guards, placing and fetching a request.
-/

namespace Sys2Proof.Machine

/-! ### Framebuffer access -/

theorem memRead_eq {i : Int} {s : State} (h : 0 ≤ i ∧ i < s.cfg.fbLen) : memRead i s = .ok (s.fb.read i.toNat) := by
  simp only [memRead, if_pos h]

theorem memWrite_eq {i : Int} {s : State} (h : 0 ≤ i ∧ i < s.cfg.fbLen) (v : Byte) :
    memWrite i v s = .ok (s.withFb (s.fb.write i.toNat v)) := by
  simp only [memWrite, if_pos h]

/-- A framebuffer write that answers a state changes one byte of `fb`, at an index inside the framebuffer. -/
theorem memWrite_ok {i : Int} {v : Byte} {s t : State} (h : memWrite i v s = .ok t) :
    (0 ≤ i ∧ i < s.cfg.fbLen) ∧ t = s.withFb (s.fb.write i.toNat v) := by
  unfold memWrite at h
  split at h
  · exact ⟨‹_›, (Except.ok.inj h).symm⟩
  · cases h

/-- The bytes FLUSH sends are those of the indices 0 to FB_LEN-1, in order (R201). -/
theorem fbBytes_length (s : State) : s.fbBytes.length = s.cfg.fbLen := by simp [State.fbBytes]

theorem fbBytes_getElem (s : State) (i : Nat) (h : i < s.fbBytes.length) : s.fbBytes[i] = s.fb.read i := by
  simp [State.fbBytes]

/-! ### Emitting -/

section Emit
variable (s : State) (e : LinkEvent) (es : List LinkEvent)

@[simp] theorem emitAll_nil : emitAll [] s = s := rfl

@[simp] theorem emitAll_cons : emitAll (e :: es) s = emitAll es (emit s e) := rfl

theorem emitAll_append (fs : List LinkEvent) : emitAll (es ++ fs) s = emitAll fs (emitAll es s) := by
  simp [emitAll, List.foldl_append]

/-- Everything one emission can do: nothing on a hanging machine; hang; or record the event, using up one of the events
the bus still accepts if it counts them. -/
theorem emit_cases :
    (s.stalled = true ∧ emit s e = s) ∨
    (s.stalled = false ∧ s.busAccepts = some 0 ∧ e.canStall = true ∧ emit s e = s.stall) ∨
    (s.stalled = false ∧ ∃ n, emit s e = (s.withBus n).record e ∧
      (n = s.busAccepts ∨ ∃ k, s.busAccepts = some (k + 1) ∧ n = some k)) := by
  unfold emit
  cases hs : s.stalled
  · cases hc : e.canStall
    · exact .inr (.inr ⟨rfl, s.busAccepts, by simp; rfl, .inl rfl⟩)
    · cases hb : s.busAccepts with
      | none => exact .inr (.inr ⟨rfl, none, by simp; rw [← hb]; rfl, .inl rfl⟩)
      | some n =>
        cases n with
        | zero => exact .inr (.inl ⟨rfl, rfl, rfl, by simp⟩)
        | succ n => exact .inr (.inr ⟨rfl, some n, by simp, .inr ⟨n, rfl, rfl⟩⟩)
  · exact .inl ⟨rfl, by simp⟩

theorem emitAll_of_stalled (h : s.stalled = true) : emitAll es s = s := by
  induction es with
  | nil => rfl
  | cons e es ih => rw [emitAll_cons, show emit s e = s by simp [emit, h], ih]

/-- On a bus that never stalls every event joins TRACE, and the lines and the saved rate follow. -/
theorem emitAll_of_never_stalls (h : s.busAccepts = none ∧ s.stalled = false) :
    emitAll es s =
      { s with trace := s.trace ++ es, pins := es.foldl Pins.after s.pins,
               rateSaved := es.foldl SavedRate.after s.rateSaved } := by
  induction es generalizing s with
  | nil => simp
  | cons e es ih =>
    have he : emit s e = s.record e := by
      unfold emit; rw [h.2, h.1]; simp
    rw [emitAll_cons, he, ih (s.record e) ⟨h.1, h.2⟩]
    simp [State.record]

/-- What emitting leaves alone, whatever the bus does. -/
theorem emit_frame (s : State) (e : LinkEvent) :
    (emit s e).cfg = s.cfg ∧ (emit s e).prog = s.prog ∧ (emit s e).pc = s.pc ∧ (emit s e).fb = s.fb ∧
      (emit s e).phase = s.phase ∧ (emit s e).supply = s.supply ∧ (emit s e).addr = s.addr := by
  obtain ⟨-, h⟩ | ⟨-, -, -, h⟩ | ⟨-, n, h, -⟩ := emit_cases s e <;> rw [h] <;> exact ⟨rfl, rfl, rfl, rfl, rfl, rfl, rfl⟩

theorem emitAll_frame :
    (emitAll es s).cfg = s.cfg ∧ (emitAll es s).prog = s.prog ∧ (emitAll es s).pc = s.pc ∧ (emitAll es s).fb = s.fb ∧
      (emitAll es s).phase = s.phase ∧ (emitAll es s).supply = s.supply ∧ (emitAll es s).addr = s.addr := by
  induction es generalizing s with
  | nil => simp
  | cons e es ih =>
    obtain ⟨h1, h2, h3, h4, h5, h6, h7⟩ := ih (emit s e)
    obtain ⟨g1, g2, g3, g4, g5, g6, g7⟩ := emit_frame s e
    rw [emitAll_cons]
    exact ⟨h1.trans g1, h2.trans g2, h3.trans g3, h4.trans g4, h5.trans g5, h6.trans g6, h7.trans g7⟩

@[simp] theorem emitAll_cfg : (emitAll es s).cfg = s.cfg := (emitAll_frame s es).1
@[simp] theorem emitAll_prog : (emitAll es s).prog = s.prog := (emitAll_frame s es).2.1
@[simp] theorem emitAll_pc : (emitAll es s).pc = s.pc := (emitAll_frame s es).2.2.1
@[simp] theorem emitAll_fb : (emitAll es s).fb = s.fb := (emitAll_frame s es).2.2.2.1
@[simp] theorem emitAll_phase : (emitAll es s).phase = s.phase := (emitAll_frame s es).2.2.2.2.1
@[simp] theorem emitAll_supply : (emitAll es s).supply = s.supply := (emitAll_frame s es).2.2.2.2.2.1
@[simp] theorem emitAll_addr : (emitAll es s).addr = s.addr := (emitAll_frame s es).2.2.2.2.2.2

end Emit

/-- Everything emitting a list of events can do, from a machine that does not hang: a leading part `sent` of the list joins
TRACE and drives the lines; either that is all of it and the machine still runs, or the next event never completes and the
machine hangs on a bus that accepts nothing more (R268). -/
theorem emitAll_cases (es : List LinkEvent) (s : State) (h : s.stalled = false) :
    ∃ sent, sent <+: es ∧ (emitAll es s).trace = s.trace ++ sent ∧
      (emitAll es s).pins = sent.foldl Pins.after s.pins ∧
      (emitAll es s).rateSaved = sent.foldl SavedRate.after s.rateSaved ∧
      ((sent = es ∧ (emitAll es s).stalled = false) ∨
        ((emitAll es s).stalled = true ∧ (emitAll es s).busAccepts = some 0)) := by
  induction es generalizing s with
  | nil => exact ⟨[], by simp [h]⟩
  | cons e es ih =>
    rw [emitAll_cons]
    obtain ⟨hs, -⟩ | ⟨-, hb, -, he⟩ | ⟨-, n, he, -⟩ := emit_cases s e
    · rw [h] at hs; cases hs
    · refine ⟨[], List.nil_prefix, ?_⟩
      rw [he, emitAll_of_stalled _ _ rfl]
      exact ⟨by simp, rfl, rfl, .inr ⟨rfl, hb⟩⟩
    · obtain ⟨sent, h1, h2, h3, h4, h5⟩ := ih (emit s e) (by rw [he]; exact h)
      refine ⟨e :: sent, List.cons_prefix_cons.2 ⟨rfl, h1⟩, ?_, ?_, ?_, ?_⟩
      · rw [h2, he]; simp
      · rw [h3, he]; rfl
      · rw [h4, he]; rfl
      · rcases h5 with ⟨rfl, h5⟩ | h5
        · exact .inl ⟨rfl, h5⟩
        · exact .inr h5

/-! ### The phase guards -/

/-- Everything the Ready-only guard can answer (R190). -/
theorem whenReady_cases (s : State) (f : State → State) :
    (s.phase = .ready ∧ whenReady s f = .next (f s)) ∨ (s.phase ≠ .ready ∧ whenReady s f = .refused .notReady) := by
  unfold whenReady
  cases hp : s.phase <;> simp

theorem whenReady_next {s t : State} {f : State → State} (h : whenReady s f = .next t) : s.phase = .ready ∧ t = f s := by
  obtain ⟨hp, hf⟩ | ⟨-, hf⟩ := whenReady_cases s f
  · rw [hf] at h; exact ⟨hp, (Host.Outcome.next.inj h).symm⟩
  · rw [hf] at h; cases h

/-- Everything BEGIN's guard can answer (R190, R191). -/
theorem whenUninitialized_cases (s : State) (f : State → State) :
    (s.phase = .uninitialized ∧ whenUninitialized s f = .next (f s)) ∨
      (s.phase ≠ .uninitialized ∧ whenUninitialized s f = .refused .beginNotUninitialized) := by
  unfold whenUninitialized
  cases hp : s.phase <;> simp

theorem whenUninitialized_next {s t : State} {f : State → State} (h : whenUninitialized s f = .next t) :
    s.phase = .uninitialized ∧ t = f s := by
  obtain ⟨hp, hf⟩ | ⟨-, hf⟩ := whenUninitialized_cases s f
  · rw [hf] at h; exact ⟨hp, (Host.Outcome.next.inj h).symm⟩
  · rw [hf] at h; cases h

/-! ### Placing and fetching a request -/

theorem placeRequest_get (prog : List Request) (n : Nat) (w : Request) : (placeRequest prog n w)[n]? = some w := by
  induction n generalizing prog with
  | zero => cases prog <;> rfl
  | succ n ih => cases prog <;> simpa [placeRequest] using ih _

end Sys2Proof.Machine
end

