-- ==== Sys2Proof/Laws/Operands.lean ====
section
/-!
SUPPORT. The operand forms: what a colour does to each bit of a byte (40_framebuffer_ops.md R130), what clipping leaves
(R125, R126), indices of panel points (20_memory.md R51, R60), and what a drawing request can change.
-/

namespace Sys2Proof.Machine

/-- A masked colour operation acts on each bit on its own: selected bits take the colour, the others pass through (R130). -/
theorem onByte_getLsbD (c : Colour) (v mask : Byte) (b : Nat) (hb : b < 8) :
    (onByte c v mask).getLsbD b = if mask.getLsbD b then onBit c (v.getLsbD b) else v.getLsbD b := by
  have hff : (255#8).getLsbD b = true := by
    interval_cases b <;> rfl
  cases c <;> cases hm : mask.getLsbD b <;> cases hv : v.getLsbD b <;>
    simp [onByte, onBit, BitVec.getLsbD_or, BitVec.getLsbD_and, BitVec.getLsbD_xor, hm, hv, hff]

/-- The mask of one bit selects that bit. -/
theorem bitMask_getLsbD (b j : Nat) (hb : b < 8) (hj : j < 8) : (bitMask b).getLsbD j = decide (j = b) := by
  interval_cases b <;> interval_cases j <;> rfl

/-- The coordinates a clipped run covers are those of the run that lie in `[0, size)`. -/
theorem clip_covers (start len size : Int) (k : Int) :
    ((clip start len size).1 ≤ k ∧ k < (clip start len size).1 + (clip start len size).2) ↔
      (start ≤ k ∧ k < start + len ∧ 0 ≤ k ∧ k < size) := by
  simp only [clip]
  split <;> split <;> omega

/-- A clipped run starts at 0 or later and does not pass the far edge. -/
theorem clip_inside (start len size : Int) :
    0 ≤ (clip start len size).1 ∧ (clip start len size).1 + (clip start len size).2 ≤ size := by
  simp only [clip]
  constructor <;> split_ifs <;> omega

theorem pixelBit_lt (p : Int × Int) : pixelBit p < 8 := by
  unfold pixelBit; omega

/-- The framebuffer length of a legal configuration: one byte per column per band (R8, R58). -/
theorem fbLen_eq {c : Cfg} (h : c.Legal) : c.fbLen = (c.height / 8) * c.width := by
  obtain ⟨-, -, -, -, h8, -⟩ := h
  obtain ⟨k, hk⟩ : ∃ k, c.height = 8 * k := ⟨c.height / 8, by omega⟩
  unfold Cfg.fbLen
  rw [hk, Nat.mul_div_cancel_left k (by omega), show c.width * (8 * k) = 8 * (k * c.width) by ring,
    Nat.mul_div_cancel_left _ (by omega)]

/-- The index of a panel point is inside the framebuffer (R60: no rule forms another). -/
theorem pixelIndex_inside {c : Cfg} (h : c.Legal) {p : Int × Int} (hp : OnPanel c p) :
    0 ≤ pixelIndex c p ∧ pixelIndex c p < c.fbLen := by
  rw [fbLen_eq h]
  obtain ⟨-, -, -, -, h8, -⟩ := h
  obtain ⟨x, y⟩ := p
  obtain ⟨hx0, hx1, hy0, hy1⟩ := hp
  simp only at hx0 hx1 hy0 hy1
  obtain ⟨k, hk⟩ : ∃ k, c.height = 8 * k := ⟨c.height / 8, by omega⟩
  have hq0 : 0 ≤ y / 8 := by omega
  have hq1 : y / 8 + 1 ≤ (k : Int) := by
    rw [hk] at hy1; push_cast at hy1; omega
  rw [hk, Nat.mul_div_cancel_left k (by omega)]
  unfold pixelIndex
  simp only
  have hw : (0 : Int) ≤ c.width := by omega
  have h1 := mul_le_mul_of_nonneg_right hq1 hw
  have h2 := mul_nonneg hq0 hw
  push_cast
  constructor <;> nlinarith

/-! ### What a drawing operation can change -/

/-- `t` is `s` with another framebuffer, whose canonical form and bounds are kept. -/
def FbStep (s t : State) : Prop :=
  ∃ m : Memory, t = s.withFb m ∧ (s.fb.Wf → m.Wf) ∧ (s.fb.Within s.cfg.fbLen → m.Within s.cfg.fbLen)

theorem FbStep.rfl (s : State) : FbStep s s := ⟨s.fb, by cases s; exact Eq.refl _, id, id⟩

theorem FbStep.trans {s t u : State} (h : FbStep s t) (g : FbStep t u) : FbStep s u := by
  obtain ⟨m, rfl, h1, h2⟩ := h
  obtain ⟨n, rfl, g1, g2⟩ := g
  exact ⟨n, Eq.refl _, fun hw => g1 (h1 hw), fun hw => g2 (h2 hw)⟩

theorem memWrite_fbStep {i : Int} {v : Byte} {s t : State} (h : memWrite i v s = .ok t) : FbStep s t := by
  obtain ⟨hi, rfl⟩ := memWrite_ok h
  exact ⟨_, Eq.refl _, fun hw => Memory.write_wf hw _ _, fun hw => Memory.write_within hw (by omega) _⟩

/-- A sequence of two operations answers a state exactly where both do. -/
theorem bind_ok {α β : Type} {x : Except Fault α} {f : α → Except Fault β} {b : β} (h : (x >>= f) = .ok b) :
    ∃ a, x = .ok a ∧ f a = .ok b := by
  cases x with
  | error e => cases h
  | ok a => exact ⟨a, Eq.refl _, h⟩

theorem apply_fbStep {i : Int} {mask : Byte} {c : Colour} {s t : State} (h : apply i mask c s = .ok t) : FbStep s t := by
  obtain ⟨v, -, hw⟩ := bind_ok h
  exact memWrite_fbStep hw

/-- `Apply` inside the framebuffer: one byte takes the colour under the mask. -/
theorem apply_eq {i : Int} {s : State} (h : 0 ≤ i ∧ i < s.cfg.fbLen) (mask : Byte) (c : Colour) :
    apply i mask c s = .ok (s.withFb (s.fb.write i.toNat (onByte c (s.fb.read i.toNat) mask))) := by
  simp only [apply, memRead_eq h]
  exact memWrite_eq h _

/-- A whole byte of a vertical run is the colour under the full mask (R128). -/
theorem applyWhole_eq_apply (i : Int) (c : Colour) (s : State) : applyWhole i c s = apply i 0xFF c s := by
  by_cases h : 0 ≤ i ∧ i < s.cfg.fbLen
  · rw [apply_eq h]
    cases c
    · exact (memWrite_eq h _).trans (by simp [onByte])
    · exact (memWrite_eq h _).trans (by
        rw [show onByte .set (s.fb.read i.toNat) 0xFF = 0xFF from BitVec.or_allOnes (w := 8)])
    · simp only [applyWhole, memRead_eq h]
      exact (memWrite_eq h _).trans (by simp only [onByte]; rw [BitVec.xor_comm])
  · cases c <;> simp only [applyWhole, apply, memRead, memWrite, if_neg h] <;> exact Eq.refl _

theorem applyRow_fbStep {mask : Byte} {c : Colour} {k : Nat} {i : Int} {s t : State}
    (h : applyRow mask c k i s = .ok t) : FbStep s t := by
  induction k generalizing i s with
  | zero => cases h; exact FbStep.rfl _
  | succ k ih =>
    obtain ⟨u, hu, ht⟩ := bind_ok h
    exact (apply_fbStep hu).trans (ih ht)

theorem applyColumn_fbStep {c : Colour} {k : Nat} {i : Int} {s t : State}
    (h : applyColumn c k i s = .ok t) : FbStep s t := by
  induction k generalizing i s with
  | zero => cases h; exact FbStep.rfl _
  | succ k ih =>
    obtain ⟨u, hu, ht⟩ := bind_ok h
    rw [applyWhole_eq_apply] at hu
    exact (apply_fbStep hu).trans (ih ht)

theorem columnFromBandTop_fbStep {c : Colour} {h : Nat} {i : Int} {s t : State}
    (hr : columnFromBandTop c h i s = .ok t) : FbStep s t := by
  obtain ⟨u, hu, ht⟩ := bind_ok hr
  refine (applyColumn_fbStep hu).trans ?_
  split at ht
  · exact apply_fbStep ht
  · cases ht; exact FbStep.rfl _

theorem columnRun_fbStep {c : Colour} {m h : Nat} {i : Int} {s t : State}
    (hr : columnRun c m h i s = .ok t) : FbStep s t := by
  unfold columnRun at hr
  split at hr
  · exact columnFromBandTop_fbStep hr
  · obtain ⟨u, hu, ht⟩ := bind_ok hr
    refine (apply_fbStep hu).trans ?_
    split at ht
    · cases ht; exact FbStep.rfl _
    · exact columnFromBandTop_fbStep ht

/-- Everything drawing a native run can change: the framebuffer. -/
theorem drawRun_fbStep {r : NativeRun} {c : Colour} {s t : State} (h : drawRun r c s = .ok t) : FbStep s t := by
  unfold drawRun at h
  split at h
  · unfold hRun at h
    split at h
    · cases h; exact FbStep.rfl _
    · simp only at h
      split at h
      · cases h; exact FbStep.rfl _
      · exact applyRow_fbStep h
  · unfold vRun at h
    split at h
    · cases h; exact FbStep.rfl _
    · simp only at h
      split at h
      · cases h; exact FbStep.rfl _
      · exact columnRun_fbStep h

theorem complete_next {r : Except Fault State} {t : State} (h : complete r = .next t) : ∃ u, r = .ok u ∧ t = u.advance := by
  cases r with
  | error e => cases h
  | ok u => exact ⟨u, Eq.refl _, (Host.Outcome.next.inj h).symm⟩

/-- Everything SETPIXEL, HLINE and VLINE can change: the framebuffer and `pc`. -/
theorem execSetPixel_fbStep {rot : Rotation} {x y : Int} {col : Colour} {s t : State}
    (h : execSetPixel rot x y col s = .next t) : ∃ u, FbStep s u ∧ t = u.advance := by
  unfold execSetPixel at h
  simp only at h
  split at h
  · obtain ⟨u, hu, rfl⟩ := complete_next h
    exact ⟨u, apply_fbStep hu, Eq.refl _⟩
  · exact ⟨s, FbStep.rfl s, (Host.Outcome.next.inj h).symm⟩

theorem execHline_fbStep {rot : Rotation} {x y len : Int} {col : Colour} {s t : State}
    (h : execHline rot x y len col s = .next t) : ∃ u, FbStep s u ∧ t = u.advance := by
  obtain ⟨u, hu, rfl⟩ := complete_next h
  exact ⟨u, drawRun_fbStep hu, Eq.refl _⟩

theorem execVline_fbStep {rot : Rotation} {x y len : Int} {col : Colour} {s t : State}
    (h : execVline rot x y len col s = .next t) : ∃ u, FbStep s u ∧ t = u.advance := by
  obtain ⟨u, hu, rfl⟩ := complete_next h
  exact ⟨u, drawRun_fbStep hu, Eq.refl _⟩

/-- CLEAR answers the framebuffer zeroed. -/
theorem execClear_fbStep {s t : State} (h : execClear s = .next t) : ∃ u, FbStep s u ∧ t = u.advance :=
  ⟨s.withFb (zeroFill s.cfg.fbLen s.fb),
    ⟨_, Eq.refl _, fun hw => Memory.zeroFill_wf _ hw, fun hw => Memory.zeroFill_within _ hw⟩,
    (Host.Outcome.next.inj h).symm⟩

end Sys2Proof.Machine
end

