-- ==== Sys2Proof/Laws/PerInstr.lean ====
section
/-!
SUPPORT. The family `TableRow`: the encoding of every request matches its row of spec/opcode_table.json, whatever its
operands: the bits under the row's mask are the row's match.
-/

namespace Sys2Proof.Laws.TableRow

/-- A row's mask and match, copied from spec/opcode_table.json. -/
def row : Instr → Request × Request
  | .setPixel _ _ _ _ => (0xF0FF00000000FFFF, 0x1000000000000000)
  | .hline _ _ _ _ _ => (0xF0FF000000000000, 0x2000000000000000)
  | .vline _ _ _ _ _ => (0xF0FF000000000000, 0x3000000000000000)
  | .begin _ _ _ => (0xFFFFFFFFFFFFFE00, 0x4000000000000000)
  | .invert _ => (0xFFFFFFFFFFFFFFFE, 0x5000000000000000)
  | .dim _ => (0xFFFFFFFFFFFFFFFE, 0x6000000000000000)
  | .scrollR _ _ => (0xFFFFFFFFFFFF0000, 0x7000000000000000)
  | .scrollL _ _ => (0xFFFFFFFFFFFF0000, 0x8000000000000000)
  | .scrollDR _ _ => (0xFFFFFFFFFFFF0000, 0x9000000000000000)
  | .scrollDL _ _ => (0xFFFFFFFFFFFF0000, 0xA000000000000000)
  | .stopScroll => (0xFFFFFFFFFFFFFFFF, 0xB000000000000000)
  | .flush => (0xFFFFFFFFFFFFFFFF, 0xC000000000000000)
  | .clear => (0xFFFFFFFFFFFFFFFF, 0xD000000000000000)

def Statement (i : Instr) : Prop := encode i &&& (row i).1 = (row i).2

/-- A packed word under a mask is its fields under the mask's fields. -/
theorem packWord_and (op op' : BitVec 4) (rot rot' col col' : BitVec 2) (z z' : BitVec 8) (x x' y y' low low' : BitVec 16) :
    (op ++ rot ++ col ++ z ++ x ++ y ++ low) &&& (op' ++ rot' ++ col' ++ z' ++ x' ++ y' ++ low') =
      (op &&& op') ++ (rot &&& rot') ++ (col &&& col') ++ (z &&& z') ++ (x &&& x') ++ (y &&& y') ++ (low &&& low') := by
  simp only [BitVec.and_append]

theorem opcode_and (op : BitVec 4) : op &&& 15#4 = op := BitVec.and_allOnes

theorem formatP (op : BitVec 4) (r : Rotation) (x y l : BitVec 16) (c : Colour) :
    packWord op r.code c.code x y l &&& 0xF0FF000000000000 = op ++ 0#60 := by
  refine Eq.trans (packWord_and op 15#4 r.code 0#2 c.code 0#2 0#8 255#8 x 0#16 y 0#16 l 0#16) ?_
  rw [opcode_and]
  simp only [BitVec.and_zero, BitVec.zero_and]
  revert op; decide

theorem formatPNoLen (op : BitVec 4) (r : Rotation) (x y : BitVec 16) (c : Colour) :
    packWord op r.code c.code x y 0#16 &&& 0xF0FF00000000FFFF = op ++ 0#60 := by
  refine Eq.trans (packWord_and op 15#4 r.code 0#2 c.code 0#2 0#8 255#8 x 0#16 y 0#16 0#16 65535#16) ?_
  rw [opcode_and]
  simp only [BitVec.and_zero, BitVec.zero_and]
  revert op; decide

theorem formatLow (op : BitVec 4) (low mask : BitVec 16) (h : low &&& mask = 0#16) :
    encodeLow op low &&& (15#4 ++ 3#2 ++ 3#2 ++ 255#8 ++ 65535#16 ++ 65535#16 ++ mask) = op ++ 0#60 := by
  refine Eq.trans (packWord_and op 15#4 0#2 3#2 0#2 3#2 0#8 255#8 0#16 65535#16 0#16 65535#16 low mask) ?_
  rw [opcode_and, h]
  simp only [BitVec.zero_and]
  revert op; decide

theorem setPixel (rot : Rotation) (x y : Int) (col : Colour) : Statement (.setPixel rot x y col) :=
  formatPNoLen 1 rot _ _ col
theorem hline (rot : Rotation) (x y len : Int) (col : Colour) : Statement (.hline rot x y len col) :=
  formatP 2 rot _ _ _ col
theorem vline (rot : Rotation) (x y len : Int) (col : Colour) : Statement (.vline rot x y len col) :=
  formatP 3 rot _ _ _ col
theorem begin (vcc : Supply) (rst : Bool) (addr : DevAddr) : Statement (.begin vcc rst addr) :=
  formatLow 4 _ 0xFE00 (by cases vcc <;> cases rst <;> revert addr <;> decide)
theorem invert (flag : Bool) : Statement (.invert flag) := formatLow 5 _ 0xFFFE (by cases flag <;> decide)
theorem dim (flag : Bool) : Statement (.dim flag) := formatLow 6 _ 0xFFFE (by cases flag <;> decide)
theorem scrollR (first last : Byte) : Statement (.scrollR first last) := formatLow 7 _ 0 BitVec.and_zero
theorem scrollL (first last : Byte) : Statement (.scrollL first last) := formatLow 8 _ 0 BitVec.and_zero
theorem scrollDR (first last : Byte) : Statement (.scrollDR first last) := formatLow 9 _ 0 BitVec.and_zero
theorem scrollDL (first last : Byte) : Statement (.scrollDL first last) := formatLow 10 _ 0 BitVec.and_zero
theorem stopScroll : Statement .stopScroll := rfl
theorem flush : Statement .flush := rfl
theorem clear : Statement .clear := rfl

end Sys2Proof.Laws.TableRow
end

