-- ==== Sys2Proof/Laws/Step.lean ====
section
/-!
SUPPORT. What a request and a step can do, said once: a drawing request changes the framebuffer and `pc`; a Ready-only
request emits a list of events; BEGIN latches, emits and becomes Ready.
-/

namespace Sys2Proof.Machine

/-- The link events a Ready-only request emits (none for the others). -/
def eventsOf (i : Instr) (s : State) : List LinkEvent :=
  match i with
  | .invert flag => sendSeq s.cfg s.addr (invertSeq s.cfg flag)
  | .dim flag => sendSeq s.cfg s.addr (dimSeq s.cfg s.supply flag)
  | .scrollR a b => sendSeq s.cfg s.addr (hScrollSeq s.cfg s.cfg.codes.opHScrollR a b)
  | .scrollL a b => sendSeq s.cfg s.addr (hScrollSeq s.cfg s.cfg.codes.opHScrollL a b)
  | .scrollDR a b => sendSeq s.cfg s.addr (dScrollSeq s.cfg s.cfg.codes.opDScrollR a b)
  | .scrollDL a b => sendSeq s.cfg s.addr (dScrollSeq s.cfg s.cfg.codes.opDScrollL a b)
  | .stopScroll => sendSeq s.cfg s.addr [s.cfg.codes.opScrollOff]
  | .flush => sendSeq s.cfg s.addr (windowSeq s.cfg) ++ sendData s.cfg s.addr s.fbBytes
  | .setPixel _ _ _ _ => []
  | .hline _ _ _ _ _ => []
  | .vline _ _ _ _ _ => []
  | .begin _ _ _ => []
  | .clear => []

/-- The link events BEGIN emits (R191). -/
def beginEvents (c : Cfg) (vcc : Supply) (rst : Bool) (a : DevAddr) : List LinkEvent :=
  (if c.rstWired && rst then resetPulse c else []) ++ openLink c a ++ sendSeq c a (initSeq c vcc)

/-- A Ready-only request is its events behind the guard. -/
theorem exec_readyOnly {i : Instr} (h : i.readyOnly = true) (s : State) :
    exec i s = whenReady s fun s => (emitAll (eventsOf i s) s).finish := by
  cases i
  case flush => simp only [exec, execFlush, eventsOf, emitAll_append, sendBurst, sendCommands, emitAll_cfg, emitAll_addr]
  all_goals first | exact absurd h Bool.false_ne_true | rfl

/-- BEGIN is latching, its events, and Ready, behind the guard. -/
theorem exec_begin (vcc : Supply) (rst : Bool) (a : DevAddr) (s : State) :
    exec (.begin vcc rst a) s =
      whenUninitialized s fun s => (emitAll (beginEvents s.cfg vcc rst a) (s.latch vcc a)).becomeReady.finish := by
  simp only [exec, execBegin, sendCommands, beginEvents, emitAll_append]
  congr 1
  funext s
  cases h : s.cfg.rstWired && rst <;> simp [h]

/-- Everything a request that answers a next state can do. -/
theorem exec_next_cases {i : Instr} {s t : State} (h : exec i s = .next t) :
    (i.draws = true ∧ ∃ u, FbStep s u ∧ t = u.advance) ∨
    (i.readyOnly = true ∧ s.phase = .ready ∧ t = (emitAll (eventsOf i s) s).finish) ∨
    (∃ vcc rst a, i = .begin vcc rst a ∧ s.phase = .uninitialized ∧
      t = (emitAll (beginEvents s.cfg vcc rst a) (s.latch vcc a)).becomeReady.finish) := by
  by_cases hr : i.readyOnly = true
  · rw [exec_readyOnly hr] at h
    obtain ⟨hp, rfl⟩ := whenReady_next h
    exact .inr (.inl ⟨hr, hp, rfl⟩)
  · cases i with
    | setPixel => exact .inl ⟨rfl, execSetPixel_fbStep h⟩
    | hline => exact .inl ⟨rfl, execHline_fbStep h⟩
    | vline => exact .inl ⟨rfl, execVline_fbStep h⟩
    | clear => exact .inl ⟨rfl, execClear_fbStep h⟩
    | begin vcc rst a =>
      rw [exec_begin] at h
      obtain ⟨hp, rfl⟩ := whenUninitialized_next h
      exact .inr (.inr ⟨vcc, rst, a, rfl, hp, rfl⟩)
    | invert => exact absurd rfl hr
    | dim => exact absurd rfl hr
    | scrollR => exact absurd rfl hr
    | scrollL => exact absurd rfl hr
    | scrollDR => exact absurd rfl hr
    | scrollDL => exact absurd rfl hr
    | stopScroll => exact absurd rfl hr
    | flush => exact absurd rfl hr

/-- Everything a step that answers a next state can do: hang on, idle, or run the decoded request. -/
theorem step_next_cases {s t : State} (h : step s = .next t) :
    (s.stalled = true ∧ t = s) ∨ (s.stalled = false ∧ fetch s = none ∧ t = s) ∨
    (s.stalled = false ∧ ∃ w i, fetch s = some w ∧ decode w = .ok i ∧ exec i s = .next t) := by
  unfold step at h
  split at h
  · exact .inl ⟨‹_›, (Host.Outcome.next.inj h).symm⟩
  · rename_i hs
    have hs : s.stalled = false := by simpa using hs
    split at h
    · exact .inr (.inl ⟨hs, ‹_›, (Host.Outcome.next.inj h).symm⟩)
    · split at h
      · cases h
      · exact .inr (.inr ⟨hs, _, _, ‹_›, ‹_›, h⟩)

end Sys2Proof.Machine
end

