-- ==== Sys2Proof/Laws/Transport.lean ====
section
/-!
SUPPORT. What the events of each Transport call leave in PINS and in RATE_SAVED (10_state.md R28, R29; 41_transport.md R150
to R166).
-/

namespace Sys2Proof.Machine

variable (c : Cfg) (a : DevAddr) (p : Pins) (r : SavedRate)

/-! ### PINS -/

theorem pins_bitBang (b : Byte) :
    (bitBang b).foldl Pins.after p = { p with clk := true, mosi := b.getLsbD 0 } := by
  simp [bitBang, Pins.after, Pins.write]

/-- The lines a byte leaves behind: none when accelerated. -/
theorem pins_xferByte (b : Byte) :
    (xferByte c b).foldl Pins.after p =
      { p with clk := if c.hwAccel then p.clk else true, mosi := if c.hwAccel then p.mosi else b.getLsbD 0 } := by
  unfold xferByte
  cases c.hwAccel
  · simpa using pins_bitBang p b
  · simp [Pins.after]

theorem pins_xferBytes (bs : List Byte) (h : bs ≠ []) :
    (bs.flatMap (xferByte c)).foldl Pins.after p =
      { p with clk := if c.hwAccel then p.clk else true,
               mosi := if c.hwAccel then p.mosi else (bs.getLastD 0).getLsbD 0 } := by
  induction bs generalizing p with
  | nil => exact absurd rfl h
  | cons b bs ih =>
    rw [List.flatMap_cons, List.foldl_append, pins_xferByte]
    cases bs with
    | nil => rfl
    | cons b' bs =>
      rw [ih _ (by simp)]
      cases c.hwAccel <;> simp [List.getLastD]

theorem pins_transaction (ctrl : Byte) (payload : List Byte) : (transaction a ctrl payload).foldl Pins.after p = p := by
  have h : ∀ bs : List Byte, (bs.map LinkEvent.byte).foldl Pins.after p = p := by
    intro bs
    induction bs with
    | nil => rfl
    | cons b bs ih => exact ih
  simp [transaction, List.foldl_append, Pins.after, h]

theorem pins_sendCommand (b : Byte) : (sendCommand c a b).foldl Pins.after p = pinsAfterTransfer c false b p := by
  cases hv : c.variant
  · simp only [sendCommand, hv, sendCommand4W, List.foldl_append, pins_xferByte, pinsAfterTransfer]
    rfl
  · simp only [sendCommand, hv, sendCommand2W, pins_transaction, pinsAfterTransfer]

theorem pins_sendSeq (bs : List Byte) (h : bs ≠ []) :
    (sendSeq c a bs).foldl Pins.after p = pinsAfterTransfer c false (bs.getLastD 0) p := by
  unfold sendSeq
  induction bs generalizing p with
  | nil => exact absurd rfl h
  | cons b bs ih =>
    rw [List.flatMap_cons, List.foldl_append, pins_sendCommand]
    cases bs with
    | nil => rfl
    | cons b' bs =>
      rw [ih _ (by simp)]
      cases hv : c.variant <;> cases hh : c.hwAccel <;> simp [pinsAfterTransfer, hv, hh, List.getLastD]

theorem pins_sendData (bs : List Byte) (h : bs ≠ []) :
    (sendData c a bs).foldl Pins.after p = pinsAfterTransfer c true (bs.getLastD 0) p := by
  cases hv : c.variant
  · simp only [sendData, hv, sendData4W, List.foldl_append, pins_xferBytes c _ bs h, pinsAfterTransfer]
    rfl
  · have key : ∀ (parts : List (List Byte)) (q : Pins),
        (parts.flatMap (transaction a c.codes.ctrlData)).foldl Pins.after q = q := by
      intro parts
      induction parts with
      | nil => exact fun q => rfl
      | cons x parts ih => intro q; rw [List.flatMap_cons, List.foldl_append, pins_transaction, ih]
    simp only [sendData, hv, sendData2W, List.foldl_append, pinsAfterTransfer, key]
    cases c.rateBoost <;> rfl

/-! ### RATE_SAVED -/

theorem rate_xferByte (b : Byte) : (xferByte c b).foldl SavedRate.after r = r := by
  unfold xferByte
  cases c.hwAccel <;> rfl

theorem rate_xferBytes (bs : List Byte) : (bs.flatMap (xferByte c)).foldl SavedRate.after r = r := by
  induction bs with
  | nil => rfl
  | cons b bs ih => rw [List.flatMap_cons, List.foldl_append, rate_xferByte, ih]

theorem rate_transaction (ctrl : Byte) (payload : List Byte) :
    (transaction a ctrl payload).foldl SavedRate.after r = r := by
  have h : ∀ bs : List Byte, (bs.map LinkEvent.byte).foldl SavedRate.after r = r := by
    intro bs
    induction bs with
    | nil => rfl
    | cons b bs ih => exact ih
  simp [transaction, List.foldl_append, SavedRate.after, h]

theorem rate_sendCommand (b : Byte) : (sendCommand c a b).foldl SavedRate.after r = r := by
  cases hv : c.variant
  · simp only [sendCommand, hv, sendCommand4W, List.foldl_append, rate_xferByte]
    rfl
  · simp only [sendCommand, hv, sendCommand2W, rate_transaction]

theorem rate_sendSeq (bs : List Byte) : (sendSeq c a bs).foldl SavedRate.after r = r := by
  unfold sendSeq
  induction bs with
  | nil => rfl
  | cons b bs ih => rw [List.flatMap_cons, List.foldl_append, rate_sendCommand, ih]

/-- A burst gives back the rate it raised (R29, R166). -/
theorem rate_sendData (bs : List Byte) :
    (sendData c a bs).foldl SavedRate.after r =
      if c.variant = .twoWire ∧ c.rateBoost = true then .empty else r := by
  cases hv : c.variant
  · simp only [sendData, hv, sendData4W, List.foldl_append, rate_xferBytes]
    rfl
  · have key : ∀ (parts : List (List Byte)) (q : SavedRate),
        (parts.flatMap (transaction a c.codes.ctrlData)).foldl SavedRate.after q = q := by
      intro parts
      induction parts with
      | nil => exact fun q => rfl
      | cons x parts ih => intro q; rw [List.flatMap_cons, List.foldl_append, rate_transaction, ih]
    simp only [sendData, hv, sendData2W, List.foldl_append, key]
    cases c.rateBoost <;> rfl

theorem rate_openLink : (openLink c a).foldl SavedRate.after r = r := by
  unfold openLink; split <;> rfl

theorem pins_openLink : (openLink c a).foldl Pins.after p = p := by
  unfold openLink; split <;> rfl

theorem rate_resetPulse : (resetPulse c).foldl SavedRate.after r = r := rfl

theorem pins_resetPulse : (resetPulse c).foldl Pins.after p = { p with rst := c.rstLevels.l3 } := rfl

end Sys2Proof.Machine
end

