-- ==== Sys2Proof/Tests/Slice0.lean ====
section
/-!
SUPPORT. The model's own tests. Expected values come from spec/95_test_vectors.md (S, V and P), or from a rule where none
is printed; each test names its source. The last part shows, for every obligation with hypotheses, a concrete state and
operands that meet them.
-/

namespace Sys2Proof.Tests

open Sys2Proof Sys2Proof.Machine Sys2Proof.Claims

/-! ## Helpers -/

def next (o : Host.Outcome State Fault Refusal) : Option State :=
  match o with
  | .next s => some s
  | .fault _ => none
  | .refused _ => none

def refusal (o : Host.Outcome State Fault Refusal) : Option Refusal :=
  match o with
  | .next _ => none
  | .fault _ => none
  | .refused r => some r

theorem exists_next {o : Host.Outcome State Fault Refusal} (p : State → Bool) (h : (next o).any p = true) :
    ∃ t, o = .next t ∧ p t = true := by
  cases o with
  | next t => exact ⟨t, rfl, h⟩
  | fault f => cases h
  | refused r => cases h

/-- A panel with everything else as in P1. -/
def panel (w h : Nat) : Cfg := { Cfg.default with width := w, height := h }

/-- The configuration of program P2: 1 by 16, 4-wire accelerated, reset line wired. -/
def cfgP2 : Cfg :=
  { Cfg.default with
    width := 1, height := 16, comPins := 0x02, contrastExt := 0x10, contrastInt := 0xAF, variant := .fourWire,
    hwAccel := true, rstWired := true }

/-- After power-up with this framebuffer and one request word. -/
def fresh (c : Cfg) (fb : Memory) (w : Request) : State := { State.reset with cfg := c, fb := fb, prog := [w] }

/-- The same in phase Ready. -/
def ready (c : Cfg) (fb : Memory) (w : Request) : State :=
  { fresh c fb w with phase := .ready, pins := ⟨true, false, false, false, false⟩ }

/-- The framebuffer after one step. -/
def fbAfter (s : State) : Option Memory := (next (step s)).map State.fb

/-- What one step adds to LOG from an empty trace. -/
def logAfter (s : State) : Option (List LogItem) := (next (step s)).map fun t => log t.cfg t.trace

/-! ## WellFormed: an ill-formed term for each check (R14, R85: -32768 to 32767) -/

theorem test_wf_setPixel_x : (Instr.setPixel .r0 32768 0 .set).wf = false := by decide
theorem test_wf_setPixel_y : (Instr.setPixel .r0 0 (-32769) .set).wf = false := by decide
theorem test_wf_hline_x : (Instr.hline .r0 (-32769) 0 1 .set).wf = false := by decide
theorem test_wf_hline_y : (Instr.hline .r0 0 32768 1 .set).wf = false := by decide
theorem test_wf_hline_len : (Instr.hline .r0 0 0 32768 .set).wf = false := by decide
theorem test_wf_vline_x : (Instr.vline .r0 32768 0 1 .set).wf = false := by decide
theorem test_wf_vline_y : (Instr.vline .r0 0 (-32769) 1 .set).wf = false := by decide
theorem test_wf_vline_len : (Instr.vline .r0 0 0 (-32769) .set).wf = false := by decide
theorem test_wf_boundaries : (Instr.hline .r3 (-32768) 32767 (-32768) .invert).wf = true := by decide

/-! ## Decoding: one word per constructor, written out by hand from R81 to R84 (op, rot, col, 8 zero bits, x, y, low) -/

theorem test_decode_setPixel :
    decode 0b0001_11_10_00000000_1111111111111111_1000000000000000_0000000000000000
      = .ok (.setPixel .r3 (-1) (-32768) .invert) := by decide
theorem test_decode_hline :
    decode 0b0010_10_01_00000000_1111111111111101_0000000000000101_0000000000000110
      = .ok (.hline .r2 (-3) 5 6 .set) := by decide
theorem test_decode_vline :
    decode 0b0011_01_00_00000000_0000000000001011_1111111111111110_0111111111111111
      = .ok (.vline .r1 11 (-2) 32767 .clear) := by decide
theorem test_decode_begin :
    decode 0b0100_00_00_00000000_0000000000000000_0000000000000000_0000000_1_0_0111101
      = .ok (.begin .ext false 0x3D) := by decide
theorem test_decode_begin_rst :
    decode 0b0100_00_00_00000000_0000000000000000_0000000000000000_0000000_0_1_1111111
      = .ok (.begin .int true 0x7F) := by decide
theorem test_decode_invert :
    decode 0b0101_00_00_00000000_0000000000000000_0000000000000000_000000000000000_1 = .ok (.invert true) := by decide
theorem test_decode_dim :
    decode 0b0110_00_00_00000000_0000000000000000_0000000000000000_000000000000000_0 = .ok (.dim false) := by decide
theorem test_decode_scrollR :
    decode 0b0111_00_00_00000000_0000000000000000_0000000000000000_00000010_00000111 = .ok (.scrollR 2 7) := by decide
theorem test_decode_scrollL :
    decode 0b1000_00_00_00000000_0000000000000000_0000000000000000_00000111_00000010 = .ok (.scrollL 7 2) := by decide
theorem test_decode_scrollDR :
    decode 0b1001_00_00_00000000_0000000000000000_0000000000000000_11111111_00000000 = .ok (.scrollDR 255 0) := by decide
theorem test_decode_scrollDL :
    decode 0b1010_00_00_00000000_0000000000000000_0000000000000000_00000000_00001111 = .ok (.scrollDL 0 15) := by decide
theorem test_decode_stopScroll : decode 0xB000000000000000 = .ok .stopScroll := by decide
theorem test_decode_flush : decode 0xC000000000000000 = .ok .flush := by decide
theorem test_decode_clear : decode 0xD000000000000000 = .ok .clear := by decide

/-- The reserved words 95_test_vectors.md prints in V1, V5, V6 and V7. -/
theorem test_decode_reserved :
    decode 0x1300000000000000 = .error .colour ∧ decode 0x1100000000000001 = .error .mustBeZero ∧
    decode 0x1101000000000000 = .error .mustBeZero ∧ decode 0x4000000000000200 = .error .mustBeZero ∧
    decode 0x5000000000000002 = .error .mustBeZero ∧ decode 0x7000000000010000 = .error .mustBeZero ∧
    decode 0xB000000000000001 = .error .mustBeZero ∧ decode 0xC000000000000001 = .error .mustBeZero ∧
    decode 0x0000000000000000 = .error .opcode ∧ decode 0xE000000000000000 = .error .opcode ∧
    decode 0xF000000000000000 = .error .opcode := by decide

/-- The encodings V1 and P1 to P4 print. -/
theorem test_encode_printed :
    encode (.setPixel .r0 127 63 .set) = 0x1100007F003F0000 ∧ encode (.setPixel .r2 5 10 .clear) = 0x18000005000A0000 ∧
    encode (.vline .r0 0 3 10 .set) = 0x310000000003000A ∧ encode (.begin .ext true 0) = 0x4000000000000180 ∧
    encode (.begin .int false 0x3C) = 0x400000000000003C ∧ encode (.scrollDL 0 0) = 0xA000000000000000 := by decide

/-- A word whose bits above the row's are not zero is longer than one request. -/
theorem test_decodeTableWord : decodeTableWord 64 0xC000000000000000 = some .flush ∧
    decodeTableWord 64 0x1300000000000000 = none ∧ decodeTableWord 72 0xC000000000000000 = none := by decide

/-! ## Construction and reset -/

/-- R8: WIDTH 1 to 256, HEIGHT 8 to 248 and a multiple of 8; R95: the two control bytes differ. -/
theorem test_legal : (panel 1 8).Legal ∧ (panel 256 248).Legal ∧ ¬(panel 0 8).Legal ∧ ¬(panel 257 8).Legal ∧
    ¬(panel 8 0).Legal ∧ ¬(panel 8 12).Legal ∧ ¬(panel 8 256).Legal ∧
    ¬({ Cfg.default with codes := { DeviceCodes.default with ctrlData := 0x00 } } : Cfg).Legal := by decide

/-- R8: FB_LEN is derived; 128 by 64 has 1024 bytes (S3). -/
theorem test_fbLen : (panel 128 64).fbLen = 1024 ∧ (panel 17 8).fbLen = 17 := by decide

theorem test_reset_inv : State.reset.Inv := by decide
theorem test_reset_isReset : State.reset.IsReset := by decide

/-- R33: what reset leaves. -/
theorem test_reset_values : State.reset.phase = .uninitialized ∧ State.reset.rateSaved = .empty ∧
    State.reset.trace = [] ∧ State.reset.pc = 0 := by decide

theorem test_construct_rejects : construct (panel 8 12) ⟨[], .int, 0, priorLevels, none⟩ [] = none := by decide

/-! ## Memory -/

theorem test_memory_canonical :
    Memory.write (Memory.write (Memory.write [] 5 0xA1) 2 0x33) 5 0x00 = [(2, 0x33)] ∧
    Memory.write (Memory.write [] 5 0xA1) 2 0x33 = [(2, 0x33), (5, 0xA1)] := by decide

/-! ## Drawing requests -/

/-- V1: `SETPIXEL 1, 5, 10, SET` on 128 by 64 changes the native point (117,5): FB[117] = 0x20. -/
theorem test_setPixel_rot1 : fbAfter (fresh Cfg.default [] 0x15000005000A0000) = some [(117, 0x20)] := by decide

/-- V1: `SETPIXEL 0, 0, 2, CLEAR` on 0xA5 gives 0xA1. -/
theorem test_setPixel_clear : fbAfter (fresh Cfg.default [(0, 0xA5)] 0x1000000000020000) = some [(0, 0xA1)] := by decide

/-- V2: `HLINE 2, -3, 5, 6, SET` on 16 by 16 gives FB[29..31] = 0x04. -/
theorem test_hline_rot2 : fbAfter (fresh (panel 16 16) [] 0x2900FFFD00050006) =
    some [(29, 0x04), (30, 0x04), (31, 0x04)] := by decide

/-- V2: `HLINE 3, 12, 5, 10, SET` on 16 by 16 is `VRun(5,-6,10)`: FB[5] = 0x0F. -/
theorem test_hline_rot3 : fbAfter (fresh (panel 16 16) [] 0x2D00000C0005000A) = some [(5, 0x0F)] := by decide

/-- S6: `VLINE 0, 0, 3, 10, SET` on 1 by 16 gives F8 1F. -/
theorem test_vline_band_edge : fbAfter (fresh (panel 1 16) [] 0x310000000003000A) = some [(0, 0xF8), (1, 0x1F)] := by
  decide

/-- V3: `VLINE 0, 0, 4, 24, INVERT` on 1 by 32 holding 3C A5 0F F0 gives CC 5A F0 FF. -/
theorem test_vline_invert :
    fbAfter (fresh (panel 1 32) [(0, 0x3C), (1, 0xA5), (2, 0x0F), (3, 0xF0)] 0x3200000000040018) =
      some [(0, 0xCC), (1, 0x5A), (2, 0xF0), (3, 0xFF)] := by decide

/-- V7: CLEAR on F8 1F, in any phase. -/
theorem test_clear : fbAfter (fresh (panel 1 16) [(0, 0xF8), (1, 0x1F)] 0xD000000000000000) = some [] ∧
    fbAfter (ready (panel 1 16) [(0, 0xF8), (1, 0x1F)] 0xD000000000000000) = some [] := by decide

/-- V1, R122: off the panel only `pc` moves. -/
theorem test_setPixel_off_panel :
    next (step (fresh Cfg.default [(7, 0x55)] 0x1E00FFFF80000000)) =
      some { fresh Cfg.default [(7, 0x55)] 0x1E00FFFF80000000 with pc := 1 } := by decide

/-! ## Controller requests -/

/-- P2, pc 0: what BEGIN EXT, 1, 0 adds to LOG; PINS RST = 1, DC = 0, CS = 1; the trace has 5 + 1 + 100 events. -/
theorem test_begin_P2 : (next (step (fresh cfgP2 [] 0x4000000000000180))).map (fun t =>
      (log t.cfg t.trace, t.phase, t.supply, t.pins, t.trace.length)) =
    some (.pulse true false true :: .opened none ::
      ([0xD5, 0x80, 0xA8, 0x0F, 0xD3, 0x00, 0x40, 0x8D, 0x10, 0x20, 0x00, 0xA1, 0xC8, 0xDA, 0x02, 0x81, 0x10, 0xD9, 0x22,
        0xDB, 0x40, 0xA4, 0xA6, 0x2E, 0xAF] : List Byte).map .command,
      .ready, .ext, ⟨true, false, false, false, true⟩, 106) := by decide +kernel

/-- P5 (b): a second BEGIN is refused. -/
theorem test_begin_twice : refusal (step (ready cfgP2 [] 0x400000000000003C)) = some .beginNotUninitialized := by decide

/-- V6. -/
theorem test_invert : logAfter (ready (panel 1 16) [] 0x5000000000000001) = some [.command 0xA7] := by decide
theorem test_dim_on : logAfter (ready (panel 1 16) [] 0x6000000000000001) = some [.command 0x81, .command 0x00] := by decide
theorem test_dim_off : logAfter (ready (panel 1 16) [] 0x6000000000000000) = some [.command 0x81, .command 0xCF] := by decide
theorem test_scrollR : logAfter (ready (panel 1 16) [] 0x7000000000000207) =
    some (([0x26, 0x00, 0x02, 0x00, 0x07, 0x00, 0xFF, 0x2F] : List Byte).map .command) := by decide +kernel
theorem test_scrollL : logAfter (ready (panel 1 16) [] 0x8000000000000702) =
    some (([0x27, 0x00, 0x07, 0x00, 0x02, 0x00, 0xFF, 0x2F] : List Byte).map .command) := by decide +kernel
theorem test_scrollDR : logAfter (ready (panel 1 32) [] 0x9000000000000207) =
    some (([0xA3, 0x00, 0x20, 0x29, 0x00, 0x02, 0x00, 0x07, 0x01, 0x2F] : List Byte).map .command) := by decide +kernel
theorem test_scrollDL : logAfter (ready (panel 17 8) [] 0xA000000000000000) =
    some (([0xA3, 0x00, 0x08, 0x2A, 0x00, 0x00, 0x00, 0x00, 0x01, 0x2F] : List Byte).map .command) := by decide +kernel
theorem test_stopScroll : logAfter (ready (panel 1 16) [] 0xB000000000000000) = some [.command 0x2E] := by decide

/-- V7: FLUSH of F8 1F on 1 by 16. -/
theorem test_flush : logAfter (ready (panel 1 16) [(0, 0xF8), (1, 0x1F)] 0xC000000000000000) =
    some [.command 0x21, .command 0x00, .command 0x00, .command 0x22, .command 0x00, .command 0x01,
      .data [0xF8, 0x1F]] := by decide +kernel

/-- P5 (a): FLUSH before BEGIN is refused; P5 (c): so is a reserved word. -/
theorem test_refused : refusal (step (fresh (panel 1 16) [] 0xC000000000000000)) = some .notReady ∧
    refusal (step (fresh (panel 1 16) [] 0x1300000000000000)) = some (.reservedRequest .colour) := by decide

/-! ## Transport -/

/-- V4: `SendCommand(0xAF)` bit-banged. -/
theorem test_bitBang : bitBang 0xAF =
    [.pin .clk false, .pin .mosi true, .pin .clk true, .pin .clk false, .pin .mosi false, .pin .clk true,
     .pin .clk false, .pin .mosi true, .pin .clk true, .pin .clk false, .pin .mosi false, .pin .clk true,
     .pin .clk false, .pin .mosi true, .pin .clk true, .pin .clk false, .pin .mosi true, .pin .clk true,
     .pin .clk false, .pin .mosi true, .pin .clk true, .pin .clk false, .pin .mosi true, .pin .clk true] := by decide

/-- V4: `LOG` of it under chip select. -/
theorem test_log_bitBang : log { cfgP2 with hwAccel := false } (sendCommand { cfgP2 with hwAccel := false } 0 0xAF) =
    [.command 0xAF] := by decide +kernel

/-- S5, V4: a burst of 17 is cut 16 and 1, one of 33 is cut 16, 16 and 1. -/
theorem test_payloads : (payloads (List.replicate 17 0x01)).map List.length = [16, 1] ∧
    (payloads (List.replicate 33 0x01)).map List.length = [16, 16, 1] ∧
    (payloads (List.replicate 16 0x01)).map List.length = [16] := by decide

/-- R268: on a bus that accepts one more event STOPSCROLL hangs after its start: `pc` stays, and the event stays sent. -/
theorem test_stall : (next (step { ready (panel 1 16) [] 0xB000000000000000 with busAccepts := some 1 })).map (fun t =>
    (t.trace, t.pc, t.stalled)) = some ([.start 0], 0, true) := by decide

/-! ## The host's notation (R89, R90, R92) -/

theorem test_asm_line :
    readAsmLine "SETPIXEL 3, -1, -32768, INVERT ; a comment".toList = .request (.setPixel .r3 (-1) (-32768) .invert) ∧
    readAsmLine "BEGIN INT, 0, 0x3C".toList = .request (.begin .int false 0x3C) ∧
    readAsmLine "SCROLLR 0, 256".toList = .error ∧ readAsmLine "; nothing".toList = .blank := by decide +kernel

/-- P1's words. -/
theorem test_assemble : assemble "BEGIN INT, 0, 0x3C\nCLEAR\nPIXEL 127, 63, WHITE\nDISPLAY".toList =
    some [0x400000000000003C, 0xD000000000000000, 0x1100007F003F0000, 0xC000000000000000] := by decide +kernel

theorem test_listing : listing 0x1100007F003F0000 = "0x1100007F003F0000".toList := by decide +kernel

/-! ## Witnesses: the hypotheses of the obligations are met together, clause by clause at the boundaries -/

/-- 1 by 16 in phase Ready on the 2-wire bus, with one request. -/
abbrev onBus (w : Request) : State := ready (panel 1 16) [(0, 0xF8), (1, 0x1F)] w

/-- The same, about to hang: the bus accepts one more event. -/
abbrev aboutToHang (w : Request) : State := { onBus w with busAccepts := some 1 }

/-- The state a hanging STOPSCROLL leaves. -/
abbrev hanging : State :=
  { onBus 0xB000000000000000 with trace := [.start 0], busAccepts := some 0, stalled := true }

theorem test_hanging : step (aboutToHang 0xB000000000000000) = .next hanging := rfl

theorem witness_DecodeOfEncodeIsTheRequest : (Instr.hline .r3 (-32768) 32767 (-32768) .invert).WellFormed := by decide

theorem witness_EncodeOfDecodeIsTheWord : decode 0x3C00000BFFFE0008 = .ok (.vline .r3 11 (-2) 8 .clear) := by decide

theorem witness_ReservedWordsAreExactlyTheRejected :
    ReservedWord 0x0000000000000000 ∧ ReservedWord 0xE000000000000000 ∧ ReservedWord 0xF000000000000000 ∧
    ReservedWord 0x4000000000000200 ∧ ReservedWord 0x1300000000000000 ∧ ¬ReservedWord 0x12000000FFFF0000 := by
  unfold ReservedWord; decide

theorem witness_StepRefusesReservedWords :
    (onBus 0x1300000000000000).stalled = false ∧
      (onBus 0x1300000000000000).prog[(onBus 0x1300000000000000).pc]? = some 0x1300000000000000 ∧
      ReservedWord 0x1300000000000000 := by
  unfold ReservedWord; decide

theorem witness_StepRunsTheDecodedRequest :
    (onBus 0xB000000000000000).stalled = false ∧
      (onBus 0xB000000000000000).prog[(onBus 0xB000000000000000).pc]? = some 0xB000000000000000 ∧
      decode 0xB000000000000000 = .ok .stopScroll := by decide

theorem witness_StepWithoutRequestChangesNothing : State.reset.prog.length ≤ State.reset.pc := by decide

theorem witness_HangingMachineNeverMoves : hanging.stalled = true := rfl

theorem witness_PlacedRequestIsTheNextToRun : decodeTableWord 64 0x1100007F003F0000 = some (.setPixel .r0 127 63 .set) := by
  decide

theorem witness_EveryRequestAdvancesPcByOne :
    (∃ t, (onBus 0).stalled = false ∧ exec .stopScroll (onBus 0) = .next t ∧ t.stalled = false) ∧
    ∃ t, (aboutToHang 0).stalled = false ∧ exec .stopScroll (aboutToHang 0) = .next t ∧ t.stalled = true :=
  ⟨⟨_, rfl, rfl, rfl⟩, ⟨_, rfl, rfl, rfl⟩⟩

theorem witness_ConfigurationAndRequestsNeverChange : ∃ t, step (onBus 0xB000000000000000) = .next t := ⟨_, rfl⟩

theorem witness_TraceOnlyGrows :
    (∃ t, exec .stopScroll (onBus 0) = .next t) ∧ ∃ t, step (onBus 0xB000000000000000) = .next t :=
  ⟨⟨_, rfl⟩, ⟨_, rfl⟩⟩

/-- BEGIN of P4 from reset, on a bus that never stalls and on one that stalls at once; and a request that is no BEGIN. -/
theorem witness_OnlyBeginMovesThePhase :
    State.reset.stalled = false ∧
    (∃ t, exec (.begin .int true 0x3D) State.reset = .next t ∧ !t.stalled) ∧
    (∃ t, exec (.begin .int true 0x3D) { State.reset with busAccepts := some 0 } = .next t ∧ t.stalled = true) ∧
    ∃ t, exec .clear State.reset = .next t :=
  ⟨rfl, exists_next (fun t => !t.stalled) (by decide +kernel), exists_next State.stalled (by decide +kernel), ⟨_, rfl⟩⟩

theorem witness_OnlyBeginLatchesSupplyAndAddress :
    (∃ t, exec (.begin .ext true 0x7F) State.reset = .next t ∧ true) ∧ ∃ t, exec (.dim true) (onBus 0) = .next t :=
  ⟨exists_next (fun _ => true) (by decide +kernel), ⟨_, rfl⟩⟩

theorem witness_PhaseGuardsRefuse :
    (Instr.flush.readyOnly = true ∧ State.reset.phase ≠ .ready) ∧ (onBus 0).phase ≠ .uninitialized ∧
      (Instr.setPixel .r0 0 0 .set).draws = true := by decide

theorem witness_DrawingAndSendingAreSeparate :
    (∃ t, Instr.clear.draws = true ∧ exec .clear (onBus 0) = .next t) ∧
    ∃ t, Instr.stopScroll.draws = false ∧ Instr.stopScroll ≠ .flush ∧ exec .stopScroll (onBus 0) = .next t :=
  ⟨⟨_, rfl, rfl⟩, ⟨_, rfl, by decide, rfl⟩⟩

theorem witness_StepKeepsTheInvariant :
    (onBus 0xB000000000000000).Inv ∧ hanging.Inv ∧ ∃ t, step (onBus 0xB000000000000000) = .next t :=
  ⟨by decide, by decide, _, rfl⟩

/-- A reset state that is not `State.reset`: another panel, arbitrary content. -/
theorem witness_ResetMeetsTheInvariant : (fresh (panel 1 16) [(1, 0x5A)] 0xC000000000000000).IsReset := by decide

theorem witness_ConstructionYieldsExactlyTheResetStates :
    ¬(panel 257 8).Legal ∧ ¬(panel 0 8).Legal ∧ (panel 256 248).Legal ∧ (panel 1 8).Legal ∧
      (fresh (panel 1 16) [(1, 0x5A)] 0xC000000000000000).IsReset := by decide

theorem witness_NoStepFaults : (onBus 0).cfg.Legal := by decide

theorem witness_FramebufferReadAfterWrite :
    (onBus 0).fb.Wf ∧ (0 ≤ (0 : Int) ∧ (0 : Int) < (onBus 0).cfg.fbLen) ∧
      (0 ≤ (1 : Int) ∧ (1 : Int) < (onBus 0).cfg.fbLen) ∧
      ¬(0 ≤ (-1 : Int) ∧ (-1 : Int) < (onBus 0).cfg.fbLen) ∧ ¬(0 ≤ (2 : Int) ∧ (2 : Int) < (onBus 0).cfg.fbLen) := by
  decide

theorem witness_PixelsAndFramebufferBitsCorrespond :
    (panel 128 64).Legal ∧ OnPanel (panel 128 64) (0, 0) ∧ OnPanel (panel 128 64) (127, 63) ∧
      1023 < (panel 128 64).fbLen ∧ ¬OnPanel (panel 128 64) (128, 0) ∧ ¬OnPanel (panel 128 64) (0, -1) := by decide

theorem witness_ApplyChangesTheMaskedBits :
    (onBus 0).fb.Wf ∧ (0 ≤ (1 : Int) ∧ (1 : Int) < (onBus 0).cfg.fbLen) ∧ (0xF0 : Byte).getLsbD 3 = false ∧
      (0 : Nat) ≠ (1 : Int).toNat := by decide

theorem witness_MaskTables : 8 ≤ 8 ∧ (1 ≤ 7 ∧ 1 ≤ 1 ∧ 7 + 1 ≤ 8) ∧ (1 ≤ 1 ∧ 1 ≤ 7 ∧ 1 + 7 ≤ 8) := by decide

/-- V1: rotation 3 maps (0,63) to (63,63), on the panel, and (64,0) to (0,-1), off it. -/
theorem witness_SetPixelResult :
    (fresh (panel 128 64) [] 0).cfg.Legal ∧ (fresh (panel 128 64) [] 0).fb.Wf ∧
      OnPanel (panel 128 64) (rotMap (panel 128 64) .r3 0 63) ∧
      ¬OnPanel (panel 128 64) (rotMap (panel 128 64) .r3 64 0) := by decide

theorem witness_SetPixelReadBack :
    (onBus 0).cfg.Legal ∧ (onBus 0).fb.Wf ∧ pixelAt (onBus 0).cfg (onBus 0).fb .r0 0 15 = some false ∧
      pixelAt (onBus 0).cfg (onBus 0).fb .r0 0 3 = some true ∧
      ¬OnPanel (onBus 0).cfg (rotMap (onBus 0).cfg .r0 0 16) := by decide

/-- A run to the left of the panel; a line of length 0 has no pixel, so it is such a run too. -/
theorem witness_OffPanelRequestsChangeNoByte :
    (onBus 0).cfg.Legal ∧ ¬OnPanel (onBus 0).cfg (rotMap (onBus 0).cfg .r0 (-1) 0) ∧
    (∀ k : Int, 0 ≤ k → k < 3 → ¬OnPanel (onBus 0).cfg (rotMap (onBus 0).cfg .r0 (-3 + k) 0)) ∧
    ∀ k : Int, 0 ≤ k → k < 0 → ¬OnPanel (onBus 0).cfg (rotMap (onBus 0).cfg .r0 0 (0 + k)) := by
  refine ⟨by decide, by decide, ?_, ?_⟩
  · rintro k h0 h1 ⟨h, -⟩
    simp only [rotMap] at h
    omega
  · intro k h0 h1
    omega

/-- A pixel that the run covers, and one that it does not. -/
theorem witness_LinesDrawExactlyTheirPixels :
    (onBus 0).cfg.Legal ∧ (onBus 0).fb.Wf ∧ 1 < (onBus 0).cfg.fbLen ∧
    (0 ≤ (9 : Int) ∧ (9 : Int) < 10 ∧ rotMap (onBus 0).cfg .r0 0 (3 + 9) = pixelOfBit (onBus 0).cfg 1 4) ∧
    ∀ k : Int, 0 ≤ k → k < 10 → rotMap (onBus 0).cfg .r0 0 (3 + k) ≠ pixelOfBit (onBus 0).cfg 1 5 := by
  refine ⟨by decide, by decide, by decide, by decide, ?_⟩
  intro k h0 h1 h
  have := congrArg Prod.snd h
  simp only [rotMap, pixelOfBit, panel, ready, fresh] at this
  omega

theorem witness_LinesEqualRepeatedSetPixel : (onBus 0).cfg.Legal ∧ (onBus 0).fb.Wf := by decide

theorem witness_RepeatedDrawing :
    (onBus 0).cfg.Legal ∧ (onBus 0).fb.Wf ∧ OnPanel (onBus 0).cfg (rotMap (onBus 0).cfg .r2 0 15) := by decide

theorem witness_ClearZeroesTheFramebuffer : (onBus 0).fb.Wf ∧ 1 < (onBus 0).cfg.fbLen ∧ (onBus 0).cfg.fbLen ≤ 2 := by
  decide

theorem witness_TwoWireCommandIsItsOwnTransaction : (onBus 0).cfg.variant = .twoWire ∧ (onBus 0).BusNeverStalls := by decide

theorem witness_FourWireCommandEvents :
    (cfgP2.variant = .fourWire ∧ cfgP2.hwAccel = true) ∧
      ({ cfgP2 with hwAccel := false } : Cfg).variant = .fourWire ∧ ({ cfgP2 with hwAccel := false } : Cfg).hwAccel = false := by
  decide

theorem witness_FourWireBurstHoldsChipSelect : cfgP2.variant = .fourWire := rfl

theorem witness_TwoWireBurstIsSplitExactly : Cfg.default.variant = .twoWire := rfl

theorem witness_LogOfOneCall :
    Cfg.default.codes.ctrlCmd ≠ Cfg.default.codes.ctrlData ∧ ([0xF8, 0x1F] : List Byte) ≠ [] := by decide

/-- Two bursts in a row where RATE_BOOST marks them; a burst between two command bytes where it does not. -/
theorem witness_LinksAreInterchangeable :
    (Cfg.default.codes.ctrlCmd ≠ Cfg.default.codes.ctrlData ∧ Call.data [] ∉ [Call.data [1], .data [2]] ∧
      Cfg.default.rateBoost = true) ∧
    Call.data [] ∉ [Call.command 0, .data [1]] ∧
    ∀ pre bs bs' post, [Call.command 0, .data [1]] ≠ pre ++ [.data bs, .data bs'] ++ post := by
  refine ⟨by decide, by decide, ?_⟩
  intro pre bs bs' post h
  rcases pre with - | ⟨c, - | ⟨d, pre⟩⟩ <;> simp at h

theorem witness_SendSeqSendsEachByteOnItsOwn : cfgP2.variant = .fourWire ∧ Cfg.default.variant = .twoWire := by decide

/-- On the 2-wire link without a reset line, and on the 4-wire link with one: there BEGIN EXT, 1, 0 (P2) pulses it, and
BEGIN EXT, 0, 0x3D (V5) does not. -/
theorem witness_BeginBringsTheControllerUp :
    (State.reset.Inv ∧ State.reset.BusNeverStalls ∧ State.reset.phase = .uninitialized ∧
      (State.reset.cfg.rstWired && true) = false) ∧
    (fresh cfgP2 [] 0).Inv ∧ (fresh cfgP2 [] 0).BusNeverStalls ∧ (fresh cfgP2 [] 0).phase = .uninitialized ∧
      ((fresh cfgP2 [] 0).cfg.rstWired && true) = true ∧ ((fresh cfgP2 [] 0).cfg.rstWired && false) = false :=
  ⟨⟨by decide, by decide, rfl, rfl⟩, by decide, by decide, rfl, rfl, rfl⟩

/-- A BEGIN that pulses and completes, one that does not ask for the pulse, and a request that is no BEGIN. -/
theorem witness_ResetLineIsWrittenByBeginOnly :
    cfgP2.rstWired = true ∧ (fresh cfgP2 [] 0).stalled = false ∧
    (∃ t, exec (.begin .ext true 0) (fresh cfgP2 [] 0) = .next t ∧ !t.stalled) ∧
    (∃ t, exec (.begin .ext false 0) (fresh cfgP2 [] 0) = .next t ∧ true) ∧ ∃ t, exec .clear (fresh cfgP2 [] 0) = .next t :=
  ⟨rfl, rfl, exists_next (fun t => !t.stalled) (by decide +kernel), exists_next (fun _ => true) (by decide +kernel), ⟨_, rfl⟩⟩

/-- The premises of the controller requests' statements, on the 2-wire and on the 4-wire link. -/
theorem witness_readyOnABusThatNeverStalls :
    ((onBus 0).Inv ∧ (onBus 0).BusNeverStalls ∧ (onBus 0).phase = .ready) ∧
      (ready cfgP2 [] 0).Inv ∧ (ready cfgP2 [] 0).BusNeverStalls ∧ (ready cfgP2 [] 0).phase = .ready :=
  ⟨⟨by decide, by decide, rfl⟩, by decide, by decide, rfl⟩

theorem witness_InvertSendsOnePolarityCommand : (onBus 0).Inv ∧ (onBus 0).BusNeverStalls ∧ (onBus 0).phase = .ready :=
  witness_readyOnABusThatNeverStalls.1
theorem witness_DimSendsTheContrastCommand : (onBus 0).Inv ∧ (onBus 0).BusNeverStalls ∧ (onBus 0).phase = .ready :=
  witness_readyOnABusThatNeverStalls.1
theorem witness_HorizontalScrollsSendEightBytes : (onBus 0).Inv ∧ (onBus 0).BusNeverStalls ∧ (onBus 0).phase = .ready :=
  witness_readyOnABusThatNeverStalls.1
theorem witness_DiagonalScrollsSendTenBytes : (onBus 0).Inv ∧ (onBus 0).BusNeverStalls ∧ (onBus 0).phase = .ready :=
  witness_readyOnABusThatNeverStalls.1
theorem witness_StopScrollSendsOneByte : (onBus 0).Inv ∧ (onBus 0).BusNeverStalls ∧ (onBus 0).phase = .ready :=
  witness_readyOnABusThatNeverStalls.1
theorem witness_ClearThenFlushSendsZeros : (onBus 0).Inv ∧ (onBus 0).BusNeverStalls ∧ (onBus 0).phase = .ready :=
  witness_readyOnABusThatNeverStalls.1

theorem witness_FlushSendsTheWindowAndTheFramebuffer :
    (onBus 0).Inv ∧ (onBus 0).BusNeverStalls ∧ (onBus 0).phase = .ready ∧
      ([0xF8, 0x1F] : List Byte).length = (onBus 0).cfg.fbLen ∧
      ∀ i (h : i < ([0xF8, 0x1F] : List Byte).length), ([0xF8, 0x1F] : List Byte)[i] = (onBus 0).fb.read i :=
  ⟨by decide, by decide, rfl, by decide, by decide⟩

/-- FLUSH from two states that differ in their trace. -/
theorem witness_BytesSentDependOnNoEarlierFeature :
    (∃ t, Instr.stopScroll.readyOnly = true ∧ exec .stopScroll (onBus 0) = .next t) ∧
    ∃ t, Instr.flush.draws = false ∧ (onBus 0).BusNeverStalls ∧
      ({ onBus 0 with trace := sendCommand (panel 1 16) 0 0xA7 } : State).BusNeverStalls ∧ exec .flush (onBus 0) = .next t :=
  ⟨⟨_, rfl, rfl⟩, ⟨_, rfl, by decide, by decide, rfl⟩⟩

/-- STOPSCROLL has four stallable events on the 2-wire bus: with 4 accepted it completes, with 3 it hangs. -/
theorem witness_StalledRequestKeepsWhatWasSent :
    (∃ t, ({ onBus 0 with busAccepts := some 4 } : State).stalled = false ∧
      exec .stopScroll { onBus 0 with busAccepts := some 4 } = .next t ∧ t.stalled = false) ∧
    ∃ t, exec .stopScroll { onBus 0 with busAccepts := some 3 } = .next t ∧ t.stalled = true :=
  ⟨⟨_, rfl, rfl, rfl⟩, ⟨_, rfl, rfl⟩⟩

theorem witness_DrawingProgramsRunToTheirEnd :
    (fresh (panel 1 16) [] 0xD000000000000000).cfg.Legal ∧ (fresh (panel 1 16) [] 0xD000000000000000).stalled = false ∧
      (fresh (panel 1 16) [] 0xD000000000000000).pc ≤ (fresh (panel 1 16) [] 0xD000000000000000).prog.length ∧
      ∀ k w, (fresh (panel 1 16) [] 0xD000000000000000).pc ≤ k →
        (fresh (panel 1 16) [] 0xD000000000000000).prog[k]? = some w → ∃ i, decode w = .ok i ∧ i.draws = true := by
  refine ⟨by decide, rfl, by decide, ?_⟩
  intro k w _ h
  match k with
  | 0 => exact ⟨.clear, by cases h; rfl, rfl⟩
  | k + 1 => cases h

/-- P4's order: draw, begin, draw and send. -/
theorem witness_InitialisedProgramsRunToTheirEnd :
    let s := { fresh (panel 1 16) [] 0 with
      prog := ([Instr.clear] ++ Instr.begin .int true 0x3D :: [Instr.vline .r0 0 3 10 .set, .flush]).map encode }
    s.IsReset ∧ s.BusNeverStalls ∧
      (∀ i ∈ [Instr.clear], i.WellFormed ∧ i.draws = true) ∧
      (∀ i ∈ [Instr.vline .r0 0 3 10 .set, .flush], i.WellFormed ∧ (i.draws = true ∨ i.readyOnly = true)) := by
  decide

end Sys2Proof.Tests
end

/-!
PROOFS. The statements of 00_scope.md: what no step changes, that drawing and sending are separate, construction, and the
framebuffer's read after write.
-/

namespace Sys2Proof.Machine

/-! ### The configuration and the request list -/

/-- No request writes the configuration or the request list, whatever it draws or sends. -/
theorem exec_keeps_cfg_prog {i : Instr} {s t : State} (h : exec i s = .next t) : t.cfg = s.cfg ∧ t.prog = s.prog := by
  obtain ⟨-, u, ⟨m, rfl, -, -⟩, rfl⟩ | ⟨-, -, rfl⟩ | ⟨vcc, rst, a, -, -, rfl⟩ := exec_next_cases h
  · exact ⟨rfl, rfl⟩
  all_goals simp

/-! ### Drawing emits nothing, sending draws nothing -/

theorem readyOnly_of_draws {i : Instr} (h : i.draws = true) : i.readyOnly = false := by
  cases i <;> simp_all [Instr.draws, Instr.readyOnly]

/-- Everything a drawing request can change: the framebuffer and `pc`. -/
theorem exec_of_draws {i : Instr} {s t : State} (hd : i.draws = true) (h : exec i s = .next t) :
    ∃ m, t = (s.withFb m).advance := by
  obtain ⟨-, u, ⟨m, rfl, -, -⟩, rfl⟩ | ⟨hr, -, -⟩ | ⟨vcc, rst, a, rfl, -, -⟩ := exec_next_cases h
  · exact ⟨m, rfl⟩
  · rw [readyOnly_of_draws hd] at hr; cases hr
  · cases hd

/-- A controller request never writes the framebuffer. -/
theorem exec_keeps_fb {i : Instr} {s t : State} (hd : i.draws = false) (h : exec i s = .next t) : t.fb = s.fb := by
  obtain ⟨hd', -⟩ | ⟨-, -, rfl⟩ | ⟨vcc, rst, a, -, -, rfl⟩ := exec_next_cases h
  · rw [hd] at hd'; cases hd'
  all_goals simp

/-! ### Another framebuffer passes through sending -/

section WithFb
variable (s : State) (m : Memory)

theorem emit_withFb (e : LinkEvent) : emit (s.withFb m) e = (emit s e).withFb m := by
  cases hs : s.stalled
  · cases hc : e.canStall
    · simp only [emit, withFb_stalled, hs, hc]; rfl
    · rcases hb : s.busAccepts with _ | _ | n
      all_goals simp only [emit, withFb_stalled, withFb_busAccepts, hs, hc, hb]; rfl
  · simp only [emit, withFb_stalled, hs]; rfl

theorem emitAll_withFb (es : List LinkEvent) : emitAll es (s.withFb m) = (emitAll es s).withFb m := by
  induction es generalizing s with
  | nil => rfl
  | cons e es ih => rw [emitAll_cons, emitAll_cons, emit_withFb, ih]

theorem finish_withFb : (s.withFb m).finish = s.finish.withFb m :=
  (apply_ite (State.withFb m) (s.stalled = true) s s.advance).symm

theorem becomeReady_withFb : (s.withFb m).becomeReady = s.becomeReady.withFb m :=
  (apply_ite (State.withFb m) (s.stalled = true) s { s with phase := .ready }).symm

theorem latch_withFb (vcc : Supply) (a : DevAddr) : (s.withFb m).latch vcc a = (s.latch vcc a).withFb m := rfl

/-- Only FLUSH reads the framebuffer for what it sends. -/
theorem eventsOf_withFb {i : Instr} (h : i ≠ .flush) : eventsOf i (s.withFb m) = eventsOf i s := by
  cases i
  case flush => exact absurd rfl h
  all_goals rfl

end WithFb

theorem whenReady_of_ready {s : State} (h : s.phase = .ready) (f : State → State) : whenReady s f = .next (f s) := by
  simp only [whenReady, h]

theorem whenUninitialized_of_uninitialized {s : State} (h : s.phase = .uninitialized) (f : State → State) :
    whenUninitialized s f = .next (f s) := by
  simp only [whenUninitialized, h]

/-- With another framebuffer every controller request but FLUSH does the same and carries that framebuffer along. -/
theorem exec_withFb {i : Instr} {s t : State} (hd : i.draws = false) (hf : i ≠ .flush) (h : exec i s = .next t)
    (m : Memory) : exec i (s.withFb m) = .next (t.withFb m) := by
  obtain ⟨hd', -⟩ | ⟨hr, hp, rfl⟩ | ⟨vcc, rst, a, rfl, hp, rfl⟩ := exec_next_cases h
  · rw [hd] at hd'; cases hd'
  · have hp' : (s.withFb m).phase = .ready := hp
    rw [exec_readyOnly hr, whenReady_of_ready hp', eventsOf_withFb s m hf, emitAll_withFb, finish_withFb]
  · have hp' : (s.withFb m).phase = .uninitialized := hp
    rw [exec_begin, whenUninitialized_of_uninitialized hp', withFb_cfg, latch_withFb, emitAll_withFb,
      becomeReady_withFb, finish_withFb]

/-! ### Construction -/

/-- A memory inside `n` bytes reads as unlisted from `n` on. -/
theorem Memory.read_of_within {m : Memory} {n a : Nat} (h : m.Within n) (ha : n ≤ a) : m.read a = Memory.unlisted :=
  Memory.read_of_not_listed fun e he => ((h e he).trans_le ha).ne

theorem fbBytes_getD (s : State) {i : Nat} (h : i < s.cfg.fbLen) : s.fbBytes.getD i 0x00 = s.fb.read i := by
  have hi : i < s.fbBytes.length := by rwa [fbBytes_length]
  rw [List.getD_eq_getElem _ _ hi, fbBytes_getElem]

/-- A canonical framebuffer inside the panel is the memory of its own bytes. -/
theorem ofBytes_fbBytes {s : State} (hw : s.fb.Wf) (hn : s.fb.Within s.cfg.fbLen) :
    Memory.ofBytes s.cfg.fbLen s.fbBytes = s.fb := by
  refine Memory.ext_of_read (Memory.ofBytes_wf _ _) hw fun a => ?_
  rw [Memory.read_ofBytes]
  split
  · exact fbBytes_getD s ‹_›
  · exact (Memory.read_of_within hn (by omega)).symm

/-- The machine of a legal configuration: reset, with the unspecified content filled in. -/
def poweredUp (c : Cfg) (u : PowerUp) (prog : List Request) : State :=
  { State.reset with
    cfg := c, prog := prog, fb := Memory.ofBytes c.fbLen u.bytes, supply := u.supply, addr := u.addr,
    pins := u.pins, busAccepts := u.busAccepts }

theorem construct_of_legal {c : Cfg} (h : c.Legal) (u : PowerUp) (prog : List Request) :
    construct c u prog = some (poweredUp c u prog) := if_pos h

theorem construct_of_not_legal {c : Cfg} (h : ¬c.Legal) (u : PowerUp) (prog : List Request) :
    construct c u prog = none := if_neg h

theorem poweredUp_isReset {c : Cfg} (h : c.Legal) (u : PowerUp) (prog : List Request) : (poweredUp c u prog).IsReset :=
  ⟨h, Memory.ofBytes_wf _ _, Memory.ofBytes_within _ _, rfl, rfl, rfl, rfl, rfl⟩

/-- The unspecified content a state holds. -/
def State.powerUp (s : State) : PowerUp := ⟨s.fbBytes, s.supply, s.addr, s.pins, s.busAccepts⟩

/-- A reset state is its configuration's machine, powered up with its own content. -/
theorem poweredUp_powerUp {s : State} (h : s.IsReset) : poweredUp s.cfg s.powerUp s.prog = s := by
  obtain ⟨-, hw, hn, hphase, hrate, htrace, hpc, hstalled⟩ := h
  have hfb := ofBytes_fbBytes hw hn
  cases s
  simp_all [poweredUp, State.powerUp, State.reset]

/-! ### Framebuffer access -/

theorem memRead_outside {i : Int} {s : State} (h : ¬(0 ≤ i ∧ i < s.cfg.fbLen)) :
    memRead i s = .error .indexOutsideFramebuffer := if_neg h

theorem memWrite_outside {i : Int} {s : State} (h : ¬(0 ≤ i ∧ i < s.cfg.fbLen)) (v : Byte) :
    memWrite i v s = .error .indexOutsideFramebuffer := if_neg h

theorem memRead_withFb {i : Int} {s : State} (h : 0 ≤ i ∧ i < s.cfg.fbLen) (m : Memory) :
    memRead i (s.withFb m) = .ok (m.read i.toNat) := memRead_eq (s := s.withFb m) h

theorem memRead_withFb_outside {i : Int} {s : State} (h : ¬(0 ≤ i ∧ i < s.cfg.fbLen)) (m : Memory) :
    memRead i (s.withFb m) = .error .indexOutsideFramebuffer := memRead_outside (s := s.withFb m) h

section ReadAfterWrite
variable {s : State} {i : Int} (hw : s.fb.Wf) (hi : 0 ≤ i ∧ i < s.cfg.fbLen) (v : Byte)
include hw hi

theorem memRead_written : memRead i (s.withFb (s.fb.write i.toNat v)) = .ok v := by
  rw [memRead_withFb hi, Memory.read_write hw.1, if_pos rfl]

theorem memRead_of_ne_written {j : Int} (hj : j ≠ i) :
    memRead j (s.withFb (s.fb.write i.toNat v)) = memRead j s := by
  by_cases hin : 0 ≤ j ∧ j < s.cfg.fbLen
  · have hne : j.toNat ≠ i.toNat := by omega
    rw [memRead_withFb hin, memRead_eq hin, Memory.read_write hw.1, if_neg hne]
  · rw [memRead_withFb_outside hin, memRead_outside hin]

end ReadAfterWrite

end Sys2Proof.Machine

namespace Sys2Proof.Proofs

open Sys2Proof Sys2Proof.Machine

/-- Settles O11: a step idles, hangs, or executes one request, and none of them writes either field. -/
theorem configurationAndRequestsNeverChange : Obligations.ConfigurationAndRequestsNeverChange := by
  intro s t h
  obtain ⟨-, rfl⟩ | ⟨-, -, rfl⟩ | ⟨-, w, i, -, -, hexec⟩ := step_next_cases h
  · exact ⟨rfl, rfl⟩
  · exact ⟨rfl, rfl⟩
  · exact exec_keeps_cfg_prog hexec

/-- Settles O16, by what each kind of request can do, and by letting another framebuffer pass through every emission. -/
theorem drawingAndSendingAreSeparate : Obligations.DrawingAndSendingAreSeparate := by
  refine ⟨?_, ?_, ?_⟩
  · intro i s t hd h
    obtain ⟨m, rfl⟩ := exec_of_draws hd h
    rfl
  · intro i s t hd h
    exact exec_keeps_fb hd h
  · intro i s t m hd hf h
    exact exec_withFb hd hf h m

/-- Settles O19: the state a legal configuration powers up to is a reset state, and a reset state is what its own content
powers up to. -/
theorem constructionYieldsExactlyTheResetStates : Obligations.ConstructionYieldsExactlyTheResetStates := by
  refine ⟨?_, ?_, ?_⟩
  · intro c u prog h
    exact construct_of_not_legal h u prog
  · intro c u prog h
    refine ⟨poweredUp c u prog, construct_of_legal h u prog, poweredUp_isReset h u prog, rfl, rfl, rfl, rfl, rfl, ?_⟩
    intro i hi
    exact (Memory.read_ofBytes _ _ _).trans (if_pos hi)
  · intro s h
    exact ⟨s.powerUp, (construct_of_legal h.1 _ _).trans (congrArg some (poweredUp_powerUp h))⟩

/-- Settles O21: inside the framebuffer by reading after writing, outside it by the fault of both accesses. -/
theorem framebufferReadAfterWrite : Obligations.FramebufferReadAfterWrite := by
  intro s i v hw
  refine ⟨fun hi => ?_, fun hi => ?_⟩
  · exact ⟨s.fb.write i.toNat v, memWrite_eq hi v, Memory.write_wf hw _ _, memRead_written hw hi v,
      fun j hj => memRead_of_ne_written hw hi v hj⟩
  · exact ⟨memWrite_outside hi v, memRead_outside hi⟩

end Sys2Proof.Proofs

/-!
PROOFS. The statements of 10_state.md: which request a step runs, what every request does to `pc`, TRACE, SUPPLY and ADDR,
and the invariant of a run, which every reset state meets and every step keeps.
-/

namespace Sys2Proof.Machine

/-! ### The request a step runs -/

/-- A running machine whose next word decodes executes its request (R27, R88). -/
theorem step_eq_exec {s : State} {w : Request} {i : Instr} (hs : s.stalled = false) (hw : fetch s = some w)
    (hi : decode w = .ok i) : step s = exec i s := by
  simp [step, hs, hw, hi]

/-- A step that executes a request leaves from inside the request list. -/
theorem pc_lt_of_fetch {s : State} {w : Request} (h : fetch s = some w) : s.pc < s.prog.length :=
  (List.getElem?_eq_some_iff.1 h).1

theorem decode_of_decodeTableWord {nbits w : Nat} {i : Instr} (h : decodeTableWord nbits w = some i) :
    decode (tableWord nbits w) = .ok i := by
  unfold decodeTableWord at h
  split at h
  · cases hd : decode (tableWord nbits w) with
    | error why => rw [hd] at h; cases h
    | ok j => rw [hd] at h; exact congrArg _ (Option.some.inj h)
  · cases h

theorem fetch_withFetchWord (s : State) (nbits w : Nat) :
    fetch (s.withFetchWord nbits w) = some (tableWord nbits w) := placeRequest_get _ _ _

/-- Placing a request leaves the rest of the list. -/
theorem placeRequest_get_of_ne {prog : List Request} {n k : Nat} (w : Request) (hne : k ≠ n) (hk : k < prog.length) :
    (placeRequest prog n w)[k]? = prog[k]? := by
  induction prog generalizing n k with
  | nil => cases hk
  | cons v rest ih =>
    cases n with
    | zero =>
      obtain ⟨k, rfl⟩ := Nat.exists_eq_succ_of_ne_zero hne
      rfl
    | succ n =>
      cases k with
      | zero => rfl
      | succ k => exact ih (fun h => hne (congrArg Nat.succ h)) (Nat.lt_of_succ_lt_succ hk)

/-! ### `pc` -/

/-- Every request that completes advances `pc` by one; one that hangs leaves it (R27, R268). -/
theorem exec_pc {i : Instr} {s t : State} (hs : s.stalled = false) (h : exec i s = .next t) :
    t.pc = if t.stalled then s.pc else s.pc + 1 := by
  obtain ⟨-, u, ⟨m, rfl, -, -⟩, rfl⟩ | ⟨-, -, rfl⟩ | ⟨vcc, rst, a, -, -, rfl⟩ := exec_next_cases h
  · simp [hs]
  · simp [finish_pc]
  · simp [finish_pc]

/-! ### TRACE -/

/-- Emitting only appends to TRACE, whatever the bus does. -/
theorem trace_prefix_emitAll (es : List LinkEvent) (s : State) : s.trace <+: (emitAll es s).trace := by
  cases hs : s.stalled with
  | true => rw [emitAll_of_stalled s es hs]
  | false =>
    obtain ⟨sent, -, htrace, -⟩ := emitAll_cases es s hs
    exact ⟨sent, htrace.symm⟩

theorem trace_prefix_exec {i : Instr} {s t : State} (h : exec i s = .next t) : s.trace <+: t.trace := by
  obtain ⟨-, u, ⟨m, rfl, -, -⟩, rfl⟩ | ⟨-, -, rfl⟩ | ⟨vcc, rst, a, -, -, rfl⟩ := exec_next_cases h
  · exact List.prefix_rfl
  · rw [finish_trace]
    exact trace_prefix_emitAll _ s
  · rw [finish_trace, becomeReady_trace]
    exact trace_prefix_emitAll _ (s.latch vcc a)

/-! ### SUPPLY and ADDR -/

theorem exec_begin_latches {vcc : Supply} {rst : Bool} {a : DevAddr} {s t : State}
    (h : exec (.begin vcc rst a) s = .next t) : t.supply = vcc ∧ t.addr = a := by
  rw [exec_begin] at h
  obtain ⟨-, rfl⟩ := whenUninitialized_next h
  simp

theorem exec_keeps_supply_addr {i : Instr} {s t : State} (hi : ∀ vcc rst a, i ≠ .begin vcc rst a)
    (h : exec i s = .next t) : t.supply = s.supply ∧ t.addr = s.addr := by
  obtain ⟨-, u, ⟨m, rfl, -, -⟩, rfl⟩ | ⟨-, -, rfl⟩ | ⟨vcc, rst, a, rfl, -, -⟩ := exec_next_cases h
  · exact ⟨rfl, rfl⟩
  · simp
  · exact absurd rfl (hi vcc rst a)

/-! ### PINS holds the last level written (R28) -/

/-- The level an event writes to a line, if it writes it. -/
def LinkEvent.writes (l : Line) : LinkEvent → Option Level
  | .pin l' v => if l' = l then some v else none
  | .open4 | .open2 _ | .shift _ | .start _ | .byte _ | .stop | .rateMax | .rateRestore | .delay _ => none

theorem level_after (p : Pins) (e : LinkEvent) (l : Line) :
    (p.after e).level l = (e.writes l).getD (p.level l) := by
  cases e
  case pin l' v => cases l <;> cases l' <;> rfl
  all_goals rfl

theorem lastLevel_concat (l : Line) (es : List LinkEvent) (e : LinkEvent) :
    lastLevel l (es ++ [e]) = (e.writes l).or (lastLevel l es) := by
  unfold lastLevel
  rw [List.foldl_append]
  cases e
  case pin l' v => by_cases hl : l' = l <;> simp [LinkEvent.writes, hl]
  all_goals rfl

/-- The lines hold the last levels the trace wrote to them. -/
def HoldsLastLevels (p : Pins) (trace : List LinkEvent) : Prop :=
  ∀ l ∈ Line.all, lastLevel l trace = none ∨ lastLevel l trace = some (p.level l)

theorem holdsLastLevels_nil (p : Pins) : HoldsLastLevels p [] := fun _ _ => .inl rfl

theorem HoldsLastLevels.concat {p : Pins} {trace : List LinkEvent} (h : HoldsLastLevels p trace) (e : LinkEvent) :
    HoldsLastLevels (p.after e) (trace ++ [e]) := by
  intro l hl
  rw [lastLevel_concat, level_after]
  cases e.writes l with
  | none => exact h l hl
  | some v => exact .inr rfl

theorem HoldsLastLevels.append {p : Pins} {trace : List LinkEvent} (h : HoldsLastLevels p trace)
    (sent : List LinkEvent) : HoldsLastLevels (sent.foldl Pins.after p) (trace ++ sent) := by
  induction sent generalizing p trace with
  | nil => rwa [List.append_nil]
  | cons e sent ih =>
    rw [List.append_cons]
    exact ih (h.concat e)

/-! ### Whole transfers (R29, R154, R162) -/

/-- The events are whole transfers: between transfers before them is between transfers after them, with no rate held. -/
structure WholeTransfers (c : Cfg) (es : List LinkEvent) : Prop where
  idle : ∀ r : LogReader, r.Idle → (r.readAll c es).Idle
  rate : es.foldl SavedRate.after .empty = .empty

/-- The events leave CS high on the 4-wire link. -/
def LeavesCsHigh (c : Cfg) (es : List LinkEvent) : Prop :=
  ∀ p : Pins, c.variant = .fourWire → (es.foldl Pins.after p).cs = true

theorem WholeTransfers.append {c : Cfg} {es fs : List LinkEvent} (h : WholeTransfers c es) (g : WholeTransfers c fs) :
    WholeTransfers c (es ++ fs) where
  idle r hr := by
    rw [LogReader.readAll_append]
    exact g.idle _ (h.idle r hr)
  rate := by rw [List.foldl_append, h.rate, g.rate]

theorem LeavesCsHigh.append {c : Cfg} {fs : List LinkEvent} (g : LeavesCsHigh c fs) (es : List LinkEvent) :
    LeavesCsHigh c (es ++ fs) := by
  intro p hv
  rw [List.foldl_append]
  exact g _ hv

section Calls
variable (c : Cfg) (a : DevAddr)

theorem wholeTransfers_nil : WholeTransfers c [] := ⟨fun _ hr => hr, rfl⟩

theorem csAfter_of_high : LogReader.csAfter c true = true := by
  unfold LogReader.csAfter
  split <;> rfl

theorem pinsAfterTransfer_cs (dc : Level) (b : Byte) (p : Pins) (hv : c.variant = .fourWire) :
    (pinsAfterTransfer c dc b p).cs = true := by
  simp only [pinsAfterTransfer, hv]

theorem wholeTransfers_sendSeq (bs : List Byte) : WholeTransfers c (sendSeq c a bs) where
  idle r hr := by
    obtain ⟨hcs, hquiet⟩ := r.idle_iff_quiet.1 hr
    obtain ⟨hquiet', hcs', -, -⟩ := LogReader.readAll_sendSeq c a r bs hquiet
    refine (LogReader.idle_iff_quiet _).2 ⟨?_, hquiet'⟩
    rw [hcs', hcs, csAfter_of_high, ite_self]
  rate := rate_sendSeq c a _ bs

theorem leavesCsHigh_sendSeq {bs : List Byte} (hbs : bs ≠ []) : LeavesCsHigh c (sendSeq c a bs) := by
  intro p hv
  rw [pins_sendSeq c a p bs hbs]
  exact pinsAfterTransfer_cs c _ _ p hv

theorem wholeTransfers_sendData {bs : List Byte} (hc : c.codes.ctrlCmd ≠ c.codes.ctrlData) (hbs : bs ≠ []) :
    WholeTransfers c (sendData c a bs) where
  idle r hr := by
    obtain ⟨hcs, hquiet⟩ := r.idle_iff_quiet.1 hr
    refine (LogReader.idle_iff_quiet _).2 ?_
    cases hv : c.variant with
    | fourWire =>
      obtain ⟨hquiet', hcs', -, -⟩ := LogReader.readAll_sendData4W c a r hv bs hbs hquiet
      exact ⟨hcs', hquiet'⟩
    | twoWire =>
      obtain ⟨hquiet', hcs', -, -⟩ := LogReader.readAll_sendData2W c a r hc hv bs hquiet
      exact ⟨hcs'.trans hcs, hquiet'⟩
  rate := by rw [rate_sendData, ite_self]

theorem leavesCsHigh_sendData {bs : List Byte} (hbs : bs ≠ []) : LeavesCsHigh c (sendData c a bs) := by
  intro p hv
  rw [pins_sendData c a p bs hbs]
  exact pinsAfterTransfer_cs c _ _ p hv

theorem wholeTransfers_openLink : WholeTransfers c (openLink c a) where
  idle r hr := by
    obtain ⟨hcs, hquiet⟩ := r.idle_iff_quiet.1 hr
    obtain ⟨hquiet', hcs', -, -⟩ := LogReader.readAll_openLink c a r hquiet
    exact (LogReader.idle_iff_quiet _).2 ⟨hcs'.trans hcs, hquiet'⟩
  rate := rate_openLink c a _

theorem wholeTransfers_resetPulse : WholeTransfers c (resetPulse c) where
  idle r hr := by
    obtain ⟨hcs, hquiet⟩ := r.idle_iff_quiet.1 hr
    obtain ⟨hquiet', hcs', -, -⟩ := LogReader.readAll_resetPulse c r hquiet
    exact (LogReader.idle_iff_quiet _).2 ⟨hcs'.trans hcs, hquiet'⟩
  rate := rate_resetPulse c _

theorem wholeTransfers_beginEvents (vcc : Supply) (rst : Bool) : WholeTransfers c (beginEvents c vcc rst a) := by
  have hpulse : WholeTransfers c (if c.rstWired && rst then resetPulse c else []) := by
    split
    · exact wholeTransfers_resetPulse c
    · exact wholeTransfers_nil c
  exact (hpulse.append (wholeTransfers_openLink c a)).append (wholeTransfers_sendSeq c a _)

theorem leavesCsHigh_beginEvents (vcc : Supply) (rst : Bool) : LeavesCsHigh c (beginEvents c vcc rst a) :=
  (leavesCsHigh_sendSeq c a (List.cons_ne_nil _ _)).append _

end Calls

/-- The framebuffer of a legal configuration has a byte (R8), so no burst of FLUSH is empty. -/
theorem fbBytes_ne_nil {s : State} (h : s.cfg.Legal) : s.fbBytes ≠ [] := by
  obtain ⟨hw, -, hh, -, -, -⟩ := h
  have hlen : 0 < s.fbBytes.length := by
    rw [fbBytes_length]
    exact Nat.div_pos (hh.trans (Nat.le_mul_of_pos_left _ hw)) (by decide)
  exact List.ne_nil_of_length_pos hlen

/-- A Ready-only request sends command bytes, and FLUSH a burst after them. -/
theorem eventsOf_readyOnly {i : Instr} (h : i.readyOnly = true) (s : State) :
    ∃ bs, bs ≠ [] ∧ (eventsOf i s = sendSeq s.cfg s.addr bs ∨
      eventsOf i s = sendSeq s.cfg s.addr bs ++ sendData s.cfg s.addr s.fbBytes) := by
  cases i
  case flush => exact ⟨_, List.cons_ne_nil _ _, .inr rfl⟩
  case setPixel | hline | vline | begin | clear => cases h
  all_goals exact ⟨_, List.cons_ne_nil _ _, .inl rfl⟩

theorem eventsOf_whole {i : Instr} (h : i.readyOnly = true) {s : State} (hc : s.cfg.Legal) :
    WholeTransfers s.cfg (eventsOf i s) ∧ LeavesCsHigh s.cfg (eventsOf i s) := by
  obtain ⟨bs, hbs, hes | hes⟩ := eventsOf_readyOnly h s <;> rw [hes]
  · exact ⟨wholeTransfers_sendSeq _ _ bs, leavesCsHigh_sendSeq _ _ hbs⟩
  · have ⟨_, _, _, _, _, hctrl⟩ := hc
    have hfb := fbBytes_ne_nil hc
    exact ⟨(wholeTransfers_sendSeq _ _ bs).append (wholeTransfers_sendData _ _ hctrl hfb),
      (leavesCsHigh_sendData _ _ hfb).append _⟩

/-! ### The invariant of a run -/

/-- Between two transfers, with no rate held: what `State.LinkOk` asks of a machine that does not hang. -/
def State.AtRest (s : State) : Prop := s.rateSaved = .empty ∧ (logReader s.cfg s.trace).Idle

theorem logReader_append (c : Cfg) (es fs : List LinkEvent) :
    logReader c (es ++ fs) = (logReader c es).readAll c fs := LogReader.readAll_append _ _ _ _

/-- What the link looks like once a request has sent its events, or hangs on one of them. -/
structure State.LinkSent (s : State) : Prop where
  lines : HoldsLastLevels s.pins s.trace
  rest : s.stalled = false → s.AtRest
  cs : s.stalled = false → s.cfg.variant = .fourWire → s.pins.cs = true
  hang : s.stalled = true → s.busAccepts = some 0

/-- Sending whole transfers from rest ends at rest, or hangs on a bus that accepts nothing more. -/
theorem emitAll_linkSent {s : State} {es : List LinkEvent} (hs : s.stalled = false)
    (hlines : HoldsLastLevels s.pins s.trace)
    (hrest : s.AtRest) (hes : WholeTransfers s.cfg es) (hcs : LeavesCsHigh s.cfg es) : (emitAll es s).LinkSent := by
  obtain ⟨sent, -, htrace, hpins, hrate, hend⟩ := emitAll_cases es s hs
  have hlines' : HoldsLastLevels (emitAll es s).pins (emitAll es s).trace := by
    rw [htrace, hpins]
    exact hlines.append sent
  obtain ⟨rfl, hrun⟩ | ⟨hhang, hbus⟩ := hend
  · obtain ⟨hempty, hidle⟩ := hrest
    have hnot : (emitAll sent s).stalled ≠ true := by rw [hrun]; decide
    refine ⟨hlines', fun _ => ⟨?_, ?_⟩, fun _ hv => ?_, fun h => absurd h hnot⟩
    · rw [hrate, hempty, hes.rate]
    · rw [htrace, emitAll_cfg, logReader_append]
      exact hes.idle _ hidle
    · rw [emitAll_cfg] at hv
      rw [hpins]
      exact hcs _ hv
  · have hnot : (emitAll es s).stalled ≠ false := by rw [hhang]; decide
    exact ⟨hlines', fun h => absurd h hnot, fun h => absurd h hnot, fun _ => hbus⟩

theorem becomeReady_linkSent {s : State} (h : s.LinkSent) : s.becomeReady.LinkSent := by
  cases hs : s.stalled with
  | true => rwa [becomeReady_of_stalled s hs]
  | false =>
    rw [becomeReady_of_running s hs]
    exact ⟨h.lines, h.rest, h.cs, h.hang⟩

/-- The end of a request that sends meets the invariant: Ready where the request completed, past Uninitialized where it
hangs (R22, R268). -/
theorem finish_inv {s : State} (hfb : s.FbOk) (hlink : s.LinkSent) (hpc : s.pc < s.prog.length)
    (hready : s.stalled = false → s.phase = .ready) (hbegun : s.phase ≠ .uninitialized) : s.finish.Inv := by
  cases hs : s.stalled with
  | true =>
    have hpins : s.PinsOk := ⟨hlink.lines, fun hv _ hrun => hlink.cs hrun hv⟩
    rw [finish_of_stalled s hs]
    exact ⟨hfb, ⟨fun h => absurd h hbegun, fun _ => hs⟩, hpins, ⟨hlink.rest, fun _ => ⟨hlink.hang hs, hpc⟩⟩, hpc.le⟩
  | false =>
    have hpins : s.PinsOk := ⟨hlink.lines, fun hv _ _ => hlink.cs hs hv⟩
    have hphase := hready hs
    rw [finish_of_running s hs]
    refine ⟨hfb, ⟨fun h => absurd h hbegun, fun h => ?_⟩, hpins, ⟨fun _ => hlink.rest hs, fun h => ?_⟩, hpc⟩
    · rw [advance_phase, hphase] at h; cases h
    · rw [advance_stalled, hs] at h; cases h

/-- A drawing request keeps the invariant: another framebuffer of the same form, and the next `pc`. -/
theorem advance_inv_of_fbStep {s u : State} (hinv : s.Inv) (hs : s.stalled = false) (hpc : s.pc < s.prog.length)
    (h : FbStep s u) : u.advance.Inv := by
  obtain ⟨m, rfl, hwf, hwithin⟩ := h
  obtain ⟨⟨hlegal, hfbwf, hfbwithin⟩, hphase, hpins, ⟨hrest, -⟩, -⟩ := hinv
  refine ⟨⟨hlegal, hwf hfbwf, hwithin hfbwithin⟩, hphase, hpins, ⟨hrest, fun h => ?_⟩, hpc⟩
  rw [advance_stalled, withFb_stalled, hs] at h; cases h

/-- Every request keeps the invariant. -/
theorem exec_inv {i : Instr} {s t : State} (hinv : s.Inv) (hs : s.stalled = false) (hpc : s.pc < s.prog.length)
    (h : exec i s = .next t) : t.Inv := by
  have ⟨hfb, _, ⟨hlines, _⟩, ⟨hrest, _⟩, _⟩ := hinv
  obtain ⟨-, u, hu, rfl⟩ | ⟨hr, hp, rfl⟩ | ⟨vcc, rst, a, -, hp, rfl⟩ := exec_next_cases h
  · exact advance_inv_of_fbStep hinv hs hpc hu
  · obtain ⟨hwhole, hcs⟩ := eventsOf_whole hr hfb.1
    have hphase : (emitAll (eventsOf i s) s).phase = .ready := by simpa using hp
    have hlink := emitAll_linkSent hs hlines (hrest hs) hwhole hcs
    exact finish_inv (by simpa [State.FbOk] using hfb) hlink (by simpa using hpc) (fun _ => hphase) (by rw [hphase]; decide)
  · have hlink : (emitAll (beginEvents s.cfg vcc rst a) (s.latch vcc a)).LinkSent :=
      emitAll_linkSent hs hlines (hrest hs) (wholeTransfers_beginEvents s.cfg a vcc rst)
        (leavesCsHigh_beginEvents s.cfg a vcc rst)
    refine finish_inv (by simpa [State.FbOk] using hfb) (becomeReady_linkSent hlink) (by simpa using hpc)
      (fun hrun => ?_) ?_
    · rw [becomeReady_stalled] at hrun
      rw [becomeReady_of_running _ hrun]
    · rw [becomeReady_phase, emitAll_phase, latch_phase]
      split <;> decide

/-! ### The reset states -/

theorem reset_isReset : State.reset.IsReset := by decide

/-- Every reset state meets the invariant: nothing has been sent, so the lines and the link owe nothing (R33). -/
theorem inv_of_isReset {s : State} (h : s.IsReset) : s.Inv := by
  obtain ⟨hlegal, hwf, hwithin, hphase, hrate, htrace, hpc, hs⟩ := h
  have hlines : HoldsLastLevels s.pins s.trace := htrace ▸ holdsLastLevels_nil s.pins
  have hidle : (logReader s.cfg s.trace).Idle := by
    rw [htrace]
    exact ⟨rfl, rfl, rfl, rfl, rfl⟩
  have hphaseOk : s.PhaseOk := ⟨fun _ => ⟨htrace, hs⟩, fun h => by rw [hphase] at h; cases h⟩
  have hpins : s.PinsOk := ⟨hlines, fun _ h => by rw [hphase] at h; cases h⟩
  have hlink : s.LinkOk := ⟨fun _ => ⟨hrate, hidle⟩, fun h => by rw [hs] at h; cases h⟩
  exact ⟨⟨hlegal, hwf, hwithin⟩, hphaseOk, hpins, hlink, by omega⟩

end Sys2Proof.Machine

namespace Sys2Proof.Proofs

open Sys2Proof Sys2Proof.Machine

/-- Settles O17: a hanging or idle machine stays as it is, and a request, which starts from rest, ends at rest or hangs. -/
theorem stepKeepsTheInvariant : Obligations.StepKeepsTheInvariant := by
  intro s t hinv h
  obtain ⟨-, rfl⟩ | ⟨-, -, rfl⟩ | ⟨hs, w, i, hw, -, hexec⟩ := step_next_cases h
  · exact hinv
  · exact hinv
  · exact exec_inv hinv hs (pc_lt_of_fetch hw) hexec

/-- Settles O9: the word placed at `pc` is the word fetched there, and placing it touches no other entry of the list. -/
theorem placedRequestIsTheNextToRun : Obligations.PlacedRequestIsTheNextToRun := by
  intro s nbits w i h
  refine ⟨?_, rfl, fun k hne hk => placeRequest_get_of_ne _ hne hk⟩
  exact step_eq_exec rfl (fetch_withFetchWord s nbits w) (decode_of_decodeTableWord h)

/-- Settles O10, by what each kind of request can do. -/
theorem everyRequestAdvancesPcByOne : Obligations.EveryRequestAdvancesPcByOne := by
  intro i s t hs h
  exact exec_pc hs h

/-- Settles O12: a step hangs or idles with the TRACE it has, or executes one request, which only appends. -/
theorem traceOnlyGrows : Obligations.TraceOnlyGrows := by
  refine ⟨fun i s t h => trace_prefix_exec h, fun s t h => ?_⟩
  obtain ⟨-, rfl⟩ | ⟨-, -, rfl⟩ | ⟨-, w, i, -, -, hexec⟩ := step_next_cases h
  · exact List.prefix_rfl
  · exact List.prefix_rfl
  · exact trace_prefix_exec hexec

/-- Settles O14: BEGIN latches before it sends, and sending and drawing write neither register. -/
theorem onlyBeginLatchesSupplyAndAddress : Obligations.OnlyBeginLatchesSupplyAndAddress :=
  ⟨fun _ _ _ _ _ h => exec_begin_latches h, fun _ _ _ hi h => exec_keeps_supply_addr hi h⟩

/-- Settles O6: the word at `pc` is the one a running machine fetches. -/
theorem stepRunsTheDecodedRequest : Obligations.StepRunsTheDecodedRequest := by
  intro s w i hs hw hi
  exact step_eq_exec hs hw hi

/-- Settles O18: the reset state by computation, every reset state by having sent nothing. -/
theorem resetMeetsTheInvariant : Obligations.ResetMeetsTheInvariant :=
  ⟨reset_isReset, fun _ h => inv_of_isReset h⟩

end Sys2Proof.Proofs

/-!
PROOFS. The statements of 20_memory.md: pixels and framebuffer bits, what SETPIXEL, HLINE and VLINE draw, requests off the
panel, and FLUSH.
-/

namespace Sys2Proof.Machine

/-! ### Pixels and framebuffer bits (R51, R52) -/

theorem pixelOfBit_pixelIndex {c : Cfg} (h : c.Legal) {p : Int × Int} (hp : OnPanel c p) :
    pixelOfBit c (pixelIndex c p).toNat (pixelBit p) = p := by
  obtain ⟨hindex, -⟩ := pixelIndex_inside h hp
  obtain ⟨x, y⟩ := p
  obtain ⟨hx0, hx1, hy0, -⟩ := hp
  have hw : (c.width : Int) ≠ 0 := by omega
  have hcol : (x + y / 8 * c.width) % c.width = x := by
    rw [Int.add_mul_emod_self_right, Int.emod_eq_of_lt hx0 hx1]
  have hband : (x + y / 8 * c.width) / c.width = y / 8 := by
    rw [Int.add_mul_ediv_right _ _ hw, Int.ediv_eq_zero_of_lt hx0 hx1, zero_add]
  refine Prod.ext ?_ ?_
  · simp only [pixelOfBit, Int.natCast_mod, Int.toNat_of_nonneg hindex]
    exact hcol
  · simp only [pixelOfBit, Nat.cast_add, Nat.cast_mul, Int.natCast_div, Int.toNat_of_nonneg hindex]
    simp only [pixelIndex, hband, pixelBit]
    omega

theorem pixelOfBit_onPanel {c : Cfg} (h : c.Legal) {a b : Nat} (ha : a < c.fbLen) (hb : b < 8) :
    OnPanel c (pixelOfBit c a b) := by
  rw [fbLen_eq h] at ha
  obtain ⟨hw, -, -, -, h8, -⟩ := h
  have hcol : a % c.width < c.width := Nat.mod_lt a hw
  have hband : a / c.width < c.height / 8 := (Nat.div_lt_iff_lt_mul hw).2 ha
  unfold OnPanel pixelOfBit
  omega

theorem pixelIndex_pixelOfBit (c : Cfg) (a : Nat) {b : Nat} (hb : b < 8) : pixelIndex c (pixelOfBit c a b) = a := by
  have hband : (8 * (a / c.width) + b) / 8 = a / c.width := by omega
  have hindex : a % c.width + (8 * (a / c.width) + b) / 8 * c.width = a := by
    rw [hband, Nat.mod_add_div']
  simpa only [pixelIndex, pixelOfBit] using mod_cast hindex

theorem pixelBit_pixelOfBit (c : Cfg) (a : Nat) {b : Nat} (hb : b < 8) : pixelBit (pixelOfBit c a b) = b := by
  simp only [pixelBit, pixelOfBit]
  omega

/-- Two pixels of the panel share a byte exactly when they are in one column of one band. -/
theorem pixelIndex_eq_iff {c : Cfg} (h : c.Legal) {p q : Int × Int} (hp : OnPanel c p) (hq : OnPanel c q) :
    (pixelIndex c q).toNat = (pixelIndex c p).toNat ↔ q.1 = p.1 ∧ q.2 / 8 = p.2 / 8 := by
  constructor
  · intro heq
    have hp' := pixelOfBit_pixelIndex h hp
    have hq' := pixelOfBit_pixelIndex h hq
    have hbp := pixelBit_lt p
    have hbq := pixelBit_lt q
    rw [heq] at hq'
    rw [Prod.ext_iff] at hp' hq'
    simp only [pixelOfBit] at hp' hq'
    omega
  · rintro ⟨hx, hy⟩
    simp only [pixelIndex, hx, hy]

/-! ### Painting a set of pixels

What a drawing operation does to the framebuffer, said in native pixels: the pixels of a set take the colour, all else keeps
its value. Operations one after another paint the union of their sets, where the sets are disjoint. -/

/-- The bit of the framebuffer that a native pixel is (R51). -/
def pixelValue (c : Cfg) (m : Memory) (p : Int × Int) : Bool := (m.read (pixelIndex c p).toNat).getLsbD (pixelBit p)

/-- `m'` is `m` with the panel's pixels in `P` coloured. -/
structure Painted (c : Cfg) (col : Colour) (P : Int × Int → Prop) (m m' : Memory) : Prop where
  wf : m'.Wf
  outside : ∀ a, c.fbLen ≤ a → m'.read a = m.read a
  on : ∀ p, OnPanel c p → P p → pixelValue c m' p = onBit col (pixelValue c m p)
  off : ∀ p, OnPanel c p → ¬P p → pixelValue c m' p = pixelValue c m p

theorem Painted.of_none {c : Cfg} {col : Colour} {P : Int × Int → Prop} {m : Memory} (hw : m.Wf)
    (h : ∀ p, OnPanel c p → ¬P p) : Painted c col P m m where
  wf := hw
  outside _ _ := rfl
  on p hp hP := absurd hP (h p hp)
  off _ _ _ := rfl

theorem Painted.congr {c : Cfg} {col : Colour} {P R : Int × Int → Prop} {m n : Memory} (h : Painted c col P m n)
    (hR : ∀ p, OnPanel c p → (R p ↔ P p)) : Painted c col R m n where
  wf := h.wf
  outside := h.outside
  on p hp hRp := h.on p hp ((hR p hp).1 hRp)
  off p hp hRp := h.off p hp fun hP => hRp ((hR p hp).2 hP)

theorem Painted.trans {c : Cfg} {col : Colour} {P Q : Int × Int → Prop} {m n k : Memory} (h : Painted c col P m n)
    (g : Painted c col Q n k) (hdisjoint : ∀ p, P p → ¬Q p) : Painted c col (fun p => P p ∨ Q p) m k where
  wf := g.wf
  outside a ha := (g.outside a ha).trans (h.outside a ha)
  on p hp hPQ := by
    by_cases hP : P p
    · rw [g.off p hp (hdisjoint p hP), h.on p hp hP]
    · rw [g.on p hp (hPQ.resolve_left hP), h.off p hp hP]
  off p hp hPQ := by
    obtain ⟨hP, hQ⟩ := not_or.1 hPQ
    rw [g.off p hp hQ, h.off p hp hP]

/-- The operation completes, whatever the framebuffer lists, and colours the pixels of `P` of a canonical one. -/
def Paints (s : State) (col : Colour) (P : Int × Int → Prop) (r : Except Fault State) : Prop :=
  ∃ m, r = .ok (s.withFb m) ∧ (s.fb.Wf → Painted s.cfg col P s.fb m)

section Paints
variable {s : State} {col : Colour} {P Q R : Int × Int → Prop}

theorem Paints.of_none (h : ∀ p, OnPanel s.cfg p → ¬P p) : Paints s col P (.ok s) :=
  ⟨s.fb, rfl, fun hw => Painted.of_none hw h⟩

theorem Paints.congr {r : Except Fault State} (h : Paints s col P r) (hR : ∀ p, OnPanel s.cfg p → (R p ↔ P p)) :
    Paints s col R r := by
  obtain ⟨m, hr, hm⟩ := h
  exact ⟨m, hr, fun hw => (hm hw).congr hR⟩

/-- The rule of sequence: disjoint sets are painted one after the other. -/
theorem Paints.bind {r : Except Fault State} {f : State → Except Fault State} (h : Paints s col P r)
    (g : ∀ m, Paints (s.withFb m) col Q (f (s.withFb m))) (hdisjoint : ∀ p, P p → ¬Q p)
    (hR : ∀ p, OnPanel s.cfg p → (R p ↔ P p ∨ Q p)) : Paints s col R (r >>= f) := by
  obtain ⟨m, rfl, hm⟩ := h
  obtain ⟨n, hn, hmn⟩ := g m
  exact ⟨n, hn, fun hw => ((hm hw).trans (hmn (hm hw).wf) hdisjoint).congr hR⟩

end Paints

/-! ### The masks (R120, R126, R129) -/

theorem ff_getLsbD (b : Nat) : (0xFF#8).getLsbD b = decide (b < 8) := BitVec.getLsbD_allOnes (v := 8)

theorem leadMask_getLsbD {m : Nat} (h : Nat) {b : Nat} (hm : m < 8) (hb : b < 8) :
    (leadMask m h).getLsbD b = decide (m ≤ b ∧ b < m + h) := by
  rw [Bool.eq_iff_iff]
  unfold leadMask
  simp only
  split <;> simp [BitVec.getLsbD_shiftLeft, BitVec.getLsbD_ushiftRight, ff_getLsbD] <;> omega

theorem tailMask_getLsbD {h b : Nat} (hh : h < 8) (hb : b < 8) : (tailMask h).getLsbD b = decide (b < h) := by
  interval_cases h <;> interval_cases b <;> rfl

/-! ### The drawing loops -/

theorem pixelIndex_right (c : Cfg) (x y : Int) : pixelIndex c (x, y) + 1 = pixelIndex c (x + 1, y) := by
  simp only [pixelIndex]
  ring

/-- `n` bands down in the framebuffer is any point `n` bands down on the panel. -/
theorem pixelIndex_down (c : Cfg) (x : Int) {y y' n : Int} (h : y' / 8 = y / 8 + n) :
    pixelIndex c (x, y) + n * c.width = pixelIndex c (x, y') := by
  simp only [pixelIndex, h]
  ring

section Loops
variable {s : State} (hl : s.cfg.Legal) (col : Colour)
include hl

/-- `Apply` on the byte of a panel point paints the pixels of that byte that the mask selects (R120). -/
theorem apply_paints {p : Int × Int} (hp : OnPanel s.cfg p) (mask : Byte) :
    Paints s col (fun q => (q.1 = p.1 ∧ q.2 / 8 = p.2 / 8) ∧ mask.getLsbD (pixelBit q))
      (apply (pixelIndex s.cfg p) mask col s) := by
  have hin := pixelIndex_inside hl hp
  refine ⟨_, apply_eq hin mask col, fun hw => ⟨Memory.write_wf hw _ _, fun a ha => ?_, fun q hq hP => ?_, fun q hq hP => ?_⟩⟩
  · have hne : a ≠ (pixelIndex s.cfg p).toNat := by omega
    rw [Memory.read_write hw.1, if_neg hne]
  · obtain ⟨hbyte, hmask⟩ := hP
    have hindex := (pixelIndex_eq_iff hl hp hq).2 hbyte
    rw [pixelValue, pixelValue, Memory.read_write hw.1, if_pos hindex, onByte_getLsbD _ _ _ _ (pixelBit_lt q),
      if_pos hmask, hindex]
  · rw [pixelValue, pixelValue, Memory.read_write hw.1]
    split
    · have hmask : ¬mask.getLsbD (pixelBit q) := fun hm => hP ⟨(pixelIndex_eq_iff hl hp hq).1 ‹_›, hm⟩
      rw [onByte_getLsbD _ _ _ _ (pixelBit_lt q), if_neg hmask, ‹(pixelIndex s.cfg q).toNat = _›]
    · rfl

/-- `Apply` under the mask of one point paints that point (R122). -/
theorem apply_bitMask_paints {p : Int × Int} (hp : OnPanel s.cfg p) :
    Paints s col (· = p) (apply (pixelIndex s.cfg p) (bitMask (pixelBit p)) col s) := by
  refine (apply_paints hl col hp _).congr fun q _ => ?_
  rw [bitMask_getLsbD _ _ (pixelBit_lt p) (pixelBit_lt q), decide_eq_true_iff, Prod.ext_iff]
  simp only [pixelBit]
  omega

/-- The column loop of R125. -/
theorem applyRow_paints (k : Nat) {x y : Int} (hx : 0 ≤ x) (hxk : x + k ≤ s.cfg.width) (hy : 0 ≤ y ∧ y < s.cfg.height) :
    Paints s col (fun p => p.2 = y ∧ x ≤ p.1 ∧ p.1 < x + k)
      (applyRow (bitMask (pixelBit (x, y))) col k (pixelIndex s.cfg (x, y)) s) := by
  induction k generalizing s x with
  | zero => exact Paints.of_none fun p _ => by omega
  | succ k ih =>
    have hp : OnPanel s.cfg (x, y) := ⟨hx, by omega, hy⟩
    refine (apply_bitMask_paints hl col hp).bind (fun m => ?_) (Q := fun p => p.2 = y ∧ x + 1 ≤ p.1 ∧ p.1 < x + 1 + k)
      (fun p => ?_) (fun p _ => ?_)
    · rw [pixelIndex_right]
      exact ih (s := s.withFb m) hl (by omega) (by rw [withFb_cfg]; omega) hy
    · rintro rfl
      omega
    · rw [Prod.ext_iff]
      omega

/-- Part (b) of R126: whole bytes down a column. -/
theorem applyColumn_paints (k : Nat) {x y : Int} (hx : 0 ≤ x ∧ x < s.cfg.width) (hy : 0 ≤ y) (hband : y % 8 = 0)
    (hyk : y + 8 * k ≤ s.cfg.height) :
    Paints s col (fun p => p.1 = x ∧ y ≤ p.2 ∧ p.2 < y + 8 * k) (applyColumn col k (pixelIndex s.cfg (x, y)) s) := by
  induction k generalizing s y with
  | zero => exact Paints.of_none fun p _ => by omega
  | succ k ih =>
    have hp : OnPanel s.cfg (x, y) := ⟨hx.1, hx.2, hy, by omega⟩
    have hbyte := apply_paints hl col hp 0xFF
    rw [← applyWhole_eq_apply] at hbyte
    refine hbyte.bind (fun m => ?_) (Q := fun p => p.1 = x ∧ y + 8 ≤ p.2 ∧ p.2 < y + 8 + 8 * k)
      (fun p hP => by omega) (fun p _ => ?_)
    · have hdown := pixelIndex_down s.cfg x (show (y + 8) / 8 = y / 8 + 1 by omega)
      rw [one_mul] at hdown
      rw [withFb_cfg, hdown]
      exact ih (s := s.withFb m) hl hx (by omega) (by omega) (by rw [withFb_cfg]; omega)
    · have hff : (0xFF : Byte).getLsbD (pixelBit p) := (ff_getLsbD _).trans (decide_eq_true (pixelBit_lt p))
      simp only [hff, and_true]
      omega

/-- Parts (b) and (c) of R126: `h` rows down from the top of a band. -/
theorem columnFromBandTop_paints (h : Nat) {x y : Int} (hx : 0 ≤ x ∧ x < s.cfg.width) (hy : 0 ≤ y) (hband : y % 8 = 0)
    (hyh : y + h ≤ s.cfg.height) :
    Paints s col (fun p => p.1 = x ∧ y ≤ p.2 ∧ p.2 < y + h) (columnFromBandTop col h (pixelIndex s.cfg (x, y)) s) := by
  have hwhole := applyColumn_paints hl col (h / 8) hx hy hband (by omega)
  refine hwhole.bind (fun m => ?_) (Q := fun p => p.1 = x ∧ y + 8 * (h / 8 : Nat) ≤ p.2 ∧ p.2 < y + h)
    (fun p hP => by omega) (fun p _ => by omega)
  split
  · have hp : OnPanel s.cfg (x, y + 8 * (h / 8 : Nat)) := ⟨hx.1, hx.2, by omega, by omega⟩
    rw [withFb_cfg, pixelIndex_down s.cfg x (show (y + 8 * (h / 8 : Nat)) / 8 = y / 8 + (h / 8 : Nat) by omega)]
    refine (apply_paints (s := s.withFb m) hl col hp (tailMask (h % 8))).congr fun p _ => ?_
    rw [tailMask_getLsbD (Nat.mod_lt h (by decide)) (pixelBit_lt p), decide_eq_true_iff]
    simp only [pixelBit]
    omega
  · exact Paints.of_none fun p _ => by omega

/-- A clipped vertical run (R126). -/
theorem columnRun_paints (h : Nat) {x y : Int} (hx : 0 ≤ x ∧ x < s.cfg.width) (hy : 0 ≤ y ∧ y < s.cfg.height)
    (hyh : y + h ≤ s.cfg.height) :
    Paints s col (fun p => p.1 = x ∧ y ≤ p.2 ∧ p.2 < y + h)
      (columnRun col (pixelBit (x, y)) h (pixelIndex s.cfg (x, y)) s) := by
  have hm : pixelBit (x, y) = (y % 8).toNat := rfl
  generalize pixelBit (x, y) = m at hm ⊢
  unfold columnRun
  split
  · exact columnFromBandTop_paints hl col h hx hy.1 (by omega) hyh
  · have hp : OnPanel s.cfg (x, y) := ⟨hx.1, hx.2, hy⟩
    have hlead : Paints s col (fun p => p.1 = x ∧ y ≤ p.2 ∧ p.2 < y + h ∧ p.2 < y + (8 - m : Nat))
        (apply (pixelIndex s.cfg (x, y)) (leadMask m h) col s) := by
      refine (apply_paints hl col hp (leadMask m h)).congr fun p _ => ?_
      rw [leadMask_getLsbD h (by omega) (pixelBit_lt p), decide_eq_true_iff]
      simp only [pixelBit]
      omega
    refine hlead.bind (fun n => ?_) (Q := fun p => p.1 = x ∧ y + (8 - m : Nat) ≤ p.2 ∧ p.2 < y + h)
      (fun p hP => by omega) (fun p _ => by omega)
    split
    · exact Paints.of_none fun p _ => by omega
    · have hdown := pixelIndex_down s.cfg x (show (y + (8 - m : Nat)) / 8 = y / 8 + 1 by omega)
      rw [one_mul] at hdown
      rw [withFb_cfg, hdown]
      refine (columnFromBandTop_paints (s := s.withFb n) hl col (h - (8 - m)) hx (y := y + (8 - m : Nat)) (by omega)
        (by omega) (by rw [withFb_cfg]; omega)).congr fun p _ => ?_
      omega

end Loops

/-! ### Native runs (R123 to R126) -/

/-- The native pixels of a run, before clipping. -/
def NativeRun.Covers (r : NativeRun) (p : Int × Int) : Prop :=
  match r.kind with
  | .horizontal => p.2 = r.yn ∧ r.xn ≤ p.1 ∧ p.1 < r.xn + r.len
  | .vertical => p.1 = r.xn ∧ r.yn ≤ p.2 ∧ p.2 < r.yn + r.len

/-- The run of HLINE is the image of its logical pixels (R123). -/
theorem hlineRun_covers (c : Cfg) (r : Rotation) (x y l : Int) (p : Int × Int) :
    (hlineRun c r x y l).Covers p ↔ ∃ k, 0 ≤ k ∧ k < l ∧ rotMap c r (x + k) y = p := by
  cases r <;> simp only [hlineRun, NativeRun.Covers, rotMap, Prod.ext_iff]
  case r0 => exact ⟨fun h => ⟨p.1 - x, by omega⟩, fun ⟨k, hk⟩ => by omega⟩
  case r1 => exact ⟨fun h => ⟨p.2 - x, by omega⟩, fun ⟨k, hk⟩ => by omega⟩
  case r2 => exact ⟨fun h => ⟨c.width - 1 - x - p.1, by omega⟩, fun ⟨k, hk⟩ => by omega⟩
  case r3 => exact ⟨fun h => ⟨c.height - 1 - x - p.2, by omega⟩, fun ⟨k, hk⟩ => by omega⟩

/-- The run of VLINE is the image of its logical pixels (R124). -/
theorem vlineRun_covers (c : Cfg) (r : Rotation) (x y l : Int) (p : Int × Int) :
    (vlineRun c r x y l).Covers p ↔ ∃ k, 0 ≤ k ∧ k < l ∧ rotMap c r x (y + k) = p := by
  cases r <;> simp only [vlineRun, NativeRun.Covers, rotMap, Prod.ext_iff]
  case r0 => exact ⟨fun h => ⟨p.2 - y, by omega⟩, fun ⟨k, hk⟩ => by omega⟩
  case r1 => exact ⟨fun h => ⟨c.width - 1 - y - p.1, by omega⟩, fun ⟨k, hk⟩ => by omega⟩
  case r2 => exact ⟨fun h => ⟨c.height - 1 - y - p.2, by omega⟩, fun ⟨k, hk⟩ => by omega⟩
  case r3 => exact ⟨fun h => ⟨p.1 - y, by omega⟩, fun ⟨k, hk⟩ => by omega⟩

/-- Everything the two cuts can leave of a run along its axis: nothing, where no coordinate of it is in `[0, size)`, or the
`k` coordinates of it that are. -/
theorem clip_cases (start len size : Int) :
    ((clip start len size).2 ≤ 0 ∧ ∀ v, 0 ≤ v → v < size → ¬(start ≤ v ∧ v < start + len)) ∨
    ∃ (first : Int) (k : Nat), 0 < k ∧ clip start len size = (first, (k : Int)) ∧ 0 ≤ first ∧ first + k ≤ size ∧
      ∀ v, 0 ≤ v → v < size → ((start ≤ v ∧ v < start + len) ↔ first ≤ v ∧ v < first + k) := by
  have hcovers := clip_covers start len size
  have hinside := clip_inside start len size
  generalize clip start len size = cut at hcovers hinside ⊢
  obtain ⟨first, left⟩ := cut
  simp only at hcovers hinside
  by_cases hleft : left ≤ 0
  · refine .inl ⟨hleft, fun v hv0 hv1 => ?_⟩
    have := hcovers v
    omega
  · lift left to Nat using by omega
    refine .inr ⟨first, left, by omega, rfl, hinside.1, hinside.2, fun v hv0 hv1 => ?_⟩
    have := hcovers v
    omega

/-- Everything clipping makes of a horizontal run (R125): nothing of it is on the panel and nothing is drawn, or the column
loop draws what is. -/
theorem hRun_cases (xn yn w : Int) (col : Colour) (s : State) :
    (hRun xn yn w col s = .ok s ∧ ∀ p, OnPanel s.cfg p → ¬NativeRun.Covers ⟨.horizontal, xn, yn, w⟩ p) ∨
    ∃ (x : Int) (k : Nat), 0 < k ∧ 0 ≤ x ∧ x + k ≤ s.cfg.width ∧ (0 ≤ yn ∧ yn < s.cfg.height) ∧
      hRun xn yn w col s = applyRow (bitMask (pixelBit (x, yn))) col k (pixelIndex s.cfg (x, yn)) s ∧
      ∀ p, OnPanel s.cfg p → (NativeRun.Covers ⟨.horizontal, xn, yn, w⟩ p ↔ p.2 = yn ∧ x ≤ p.1 ∧ p.1 < x + k) := by
  simp only [hRun, NativeRun.Covers]
  by_cases hrow : yn < 0 ∨ yn ≥ s.cfg.height
  · exact .inl ⟨if_pos hrow, fun p hp => by omega⟩
  · obtain ⟨hleft, hnone⟩ | ⟨x, k, hk, hcut, hx, hxk, hcovers⟩ := clip_cases xn w s.cfg.width
    · rw [if_neg hrow, if_pos hleft]
      exact .inl ⟨rfl, fun p hp hP => hnone p.1 hp.1 hp.2.1 hP.2⟩
    · rw [if_neg hrow, hcut, if_neg (by omega), Int.toNat_natCast]
      exact .inr ⟨x, k, hk, hx, hxk, by omega, rfl, fun p hp => and_congr_right fun _ => hcovers p.1 hp.1 hp.2.1⟩

/-- Everything clipping makes of a vertical run (R126). -/
theorem vRun_cases (xn yn h : Int) (col : Colour) (s : State) :
    (vRun xn yn h col s = .ok s ∧ ∀ p, OnPanel s.cfg p → ¬NativeRun.Covers ⟨.vertical, xn, yn, h⟩ p) ∨
    ∃ (y : Int) (k : Nat), 0 < k ∧ 0 ≤ y ∧ y + k ≤ s.cfg.height ∧ (0 ≤ xn ∧ xn < s.cfg.width) ∧
      vRun xn yn h col s = columnRun col (pixelBit (xn, y)) k (pixelIndex s.cfg (xn, y)) s ∧
      ∀ p, OnPanel s.cfg p → (NativeRun.Covers ⟨.vertical, xn, yn, h⟩ p ↔ p.1 = xn ∧ y ≤ p.2 ∧ p.2 < y + k) := by
  simp only [vRun, NativeRun.Covers]
  by_cases hcol : xn < 0 ∨ xn ≥ s.cfg.width
  · exact .inl ⟨if_pos hcol, fun p hp => by omega⟩
  · obtain ⟨hleft, hnone⟩ | ⟨y, k, hk, hcut, hy, hyk, hcovers⟩ := clip_cases yn h s.cfg.height
    · rw [if_neg hcol, if_pos hleft]
      exact .inl ⟨rfl, fun p ⟨_, _, hp0, hp1⟩ hP => hnone p.2 hp0 hp1 hP.2⟩
    · rw [if_neg hcol, hcut, if_neg (by omega), Int.toNat_natCast]
      exact .inr ⟨y, k, hk, hy, hyk, by omega, rfl, fun p ⟨_, _, hp0, hp1⟩ => and_congr_right fun _ => hcovers p.2 hp0 hp1⟩

/-- A native run paints its pixels (R125, R126). -/
theorem drawRun_paints {s : State} (hl : s.cfg.Legal) (run : NativeRun) (col : Colour) :
    Paints s col run.Covers (drawRun run col s) := by
  obtain ⟨kind, xn, yn, len⟩ := run
  cases kind with
  | horizontal =>
    obtain ⟨hrun, hnone⟩ | ⟨x, k, -, hx, hxk, hy, hrun, hcovers⟩ := hRun_cases xn yn len col s
    · simpa only [drawRun, hrun] using Paints.of_none hnone
    · simpa only [drawRun, hrun] using (applyRow_paints hl col k hx hxk hy).congr hcovers
  | vertical =>
    obtain ⟨hrun, hnone⟩ | ⟨y, k, hk, hy, hyk, hx, hrun, hcovers⟩ := vRun_cases xn yn len col s
    · simpa only [drawRun, hrun] using Paints.of_none hnone
    · simpa only [drawRun, hrun] using (columnRun_paints hl col k hx ⟨hy, by omega⟩ hyk).congr hcovers

/-- A run with no pixel on the panel draws nothing, in any configuration (R60). -/
theorem drawRun_of_off_panel {s : State} {run : NativeRun} (h : ∀ p, run.Covers p → ¬OnPanel s.cfg p) (col : Colour) :
    drawRun run col s = .ok s := by
  obtain ⟨kind, xn, yn, len⟩ := run
  cases kind with
  | horizontal =>
    obtain ⟨hrun, -⟩ | ⟨x, k, hk, hx, hxk, hy, -, hcovers⟩ := hRun_cases xn yn len col s
    · exact hrun
    · have hp : OnPanel s.cfg (x, yn) := ⟨hx, by omega, hy⟩
      exact absurd hp (h _ ((hcovers _ hp).2 ⟨rfl, le_rfl, by omega⟩))
  | vertical =>
    obtain ⟨hrun, -⟩ | ⟨y, k, hk, hy, hyk, hx, -, hcovers⟩ := vRun_cases xn yn len col s
    · exact hrun
    · have hp : OnPanel s.cfg (xn, y) := ⟨hx.1, hx.2, hy, by omega⟩
      exact absurd hp (h _ ((hcovers _ hp).2 ⟨rfl, le_rfl, by omega⟩))

/-! ### The drawing requests -/

theorem exec_setPixel_on {s : State} {r : Rotation} {x y : Int} (hp : OnPanel s.cfg (rotMap s.cfg r x y)) (col : Colour) :
    exec (.setPixel r x y col) s = complete (apply (pixelIndex s.cfg (rotMap s.cfg r x y))
      (bitMask (pixelBit (rotMap s.cfg r x y))) col s) := if_pos hp

theorem exec_setPixel_off {s : State} {r : Rotation} {x y : Int} (hp : ¬OnPanel s.cfg (rotMap s.cfg r x y)) (col : Colour) :
    exec (.setPixel r x y col) s = .next s.advance := if_neg hp

theorem exec_hline (s : State) (r : Rotation) (x y len : Int) (col : Colour) :
    exec (.hline r x y len col) s = complete (drawRun (hlineRun s.cfg r x y len) col s) := rfl

theorem exec_vline (s : State) (r : Rotation) (x y len : Int) (col : Colour) :
    exec (.vline r x y len col) s = complete (drawRun (vlineRun s.cfg r x y len) col s) := rfl

/-- HLINE paints its logical pixels, where the rotation maps them (R121, R123). -/
theorem hline_paints {s : State} (hl : s.cfg.Legal) (r : Rotation) (x y len : Int) (col : Colour) :
    Paints s col (fun p => ∃ k, 0 ≤ k ∧ k < len ∧ rotMap s.cfg r (x + k) y = p)
      (drawRun (hlineRun s.cfg r x y len) col s) :=
  (drawRun_paints hl _ col).congr fun p _ => (hlineRun_covers s.cfg r x y len p).symm

/-- VLINE paints its logical pixels, where the rotation maps them (R121, R124). -/
theorem vline_paints {s : State} (hl : s.cfg.Legal) (r : Rotation) (x y len : Int) (col : Colour) :
    Paints s col (fun p => ∃ k, 0 ≤ k ∧ k < len ∧ rotMap s.cfg r x (y + k) = p)
      (drawRun (vlineRun s.cfg r x y len) col s) :=
  (drawRun_paints hl _ col).congr fun p _ => (vlineRun_covers s.cfg r x y len p).symm

/-- A painting that ends its request is next the machine with the painted framebuffer. -/
theorem Paints.complete_eq {s : State} {col : Colour} {P : Int × Int → Prop} {r : Except Fault State}
    (h : Paints s col P r) :
    ∃ m, complete r = .next (s.withFb m).advance ∧ (s.fb.Wf → Painted s.cfg col P s.fb m) := by
  obtain ⟨m, rfl, hm⟩ := h
  exact ⟨m, rfl, hm⟩

theorem Paints.complete_ne_fault {s : State} {col : Colour} {P : Int × Int → Prop} {r : Except Fault State}
    (h : Paints s col P r) (f : Fault) : complete r ≠ .fault f := by
  obtain ⟨m, hr, -⟩ := h.complete_eq
  rw [hr]
  nofun

/-- In pixels and in bits of bytes, a line draws the same (R51, R52). -/
theorem drawsPixels_of_paints {s : State} (hl : s.cfg.Legal) (hw : s.fb.Wf) {i : Instr} {r : Rotation} {len : Int}
    {point : Int → Int × Int} {col : Colour} {res : Except Fault State} (hi : exec i s = complete res)
    (h : Paints s col (fun p => ∃ k, 0 ≤ k ∧ k < len ∧ rotMap s.cfg r (point k).1 (point k).2 = p) res) :
    Claims.DrawsPixels i s r len point col := by
  obtain ⟨m, hm, hpainted⟩ := h.complete_eq
  obtain ⟨hwf, houtside, hon, hoff⟩ := hpainted hw
  refine ⟨m, hi.trans hm, hwf, houtside, fun a b ha hb => ?_⟩
  have hp := pixelOfBit_onPanel hl ha hb
  have hvalue : ∀ n : Memory, pixelValue s.cfg n (pixelOfBit s.cfg a b) = (n.read a).getLsbD b := fun n => by
    rw [pixelValue, pixelIndex_pixelOfBit _ _ hb, pixelBit_pixelOfBit _ _ hb, Int.toNat_natCast]
  have hon := hon _ hp
  have hoff := hoff _ hp
  rw [hvalue, hvalue] at hon hoff
  exact ⟨hon, hoff⟩

/-! ### No request faults (R60, R230) -/

theorem exec_ne_fault {s : State} (hl : s.cfg.Legal) (i : Instr) (f : Fault) : exec i s ≠ .fault f := by
  by_cases hr : i.readyOnly = true
  · rw [exec_readyOnly hr]
    obtain ⟨-, h⟩ | ⟨-, h⟩ := whenReady_cases s fun s => (emitAll (eventsOf i s) s).finish
    all_goals rw [h]; nofun
  · cases i with
    | setPixel r x y col =>
      by_cases hp : OnPanel s.cfg (rotMap s.cfg r x y)
      · rw [exec_setPixel_on hp]
        exact (apply_bitMask_paints hl col hp).complete_ne_fault f
      · rw [exec_setPixel_off hp]
        nofun
    | hline r x y len col => exact (hline_paints hl r x y len col).complete_ne_fault f
    | vline r x y len col => exact (vline_paints hl r x y len col).complete_ne_fault f
    | begin vcc rst a =>
      rw [exec_begin]
      obtain ⟨-, h⟩ | ⟨-, h⟩ := whenUninitialized_cases s fun s =>
        (emitAll (beginEvents s.cfg vcc rst a) (s.latch vcc a)).becomeReady.finish
      all_goals rw [h]; nofun
    | clear => nofun
    | invert | dim | scrollR | scrollL | scrollDR | scrollDL | stopScroll | flush => exact absurd rfl hr

/-! ### FLUSH (R201) -/

/-- The bytes of FLUSH's burst are the only list with the framebuffer's length and bytes. -/
theorem eq_fbBytes {s : State} {bs : List Byte} (hlen : bs.length = s.cfg.fbLen)
    (hbs : ∀ i (h : i < bs.length), bs[i] = s.fb.read i) : bs = s.fbBytes := by
  refine List.ext_getElem (hlen.trans (fbBytes_length s).symm) fun i hi hi' => ?_
  rw [hbs i hi, fbBytes_getElem]

/-- The lines after a transfer do not depend on the transfer before it. -/
theorem pinsAfterTransfer_twice (c : Cfg) (dc dc' : Level) (b b' : Byte) (p : Pins) :
    pinsAfterTransfer c dc b (pinsAfterTransfer c dc' b' p) = pinsAfterTransfer c dc b p := by
  unfold pinsAfterTransfer
  cases c.variant with
  | twoWire => rfl
  | fourWire => cases c.hwAccel <;> rfl

/-- A burst that follows a command is one data item, on either link, with RATE_BOOST or without (R171, R172). -/
theorem LogReader.done_sendData (c : Cfg) (a : DevAddr) {r : LogReader} {bs : List Byte}
    (hc : c.codes.ctrlCmd ≠ c.codes.ctrlData) (hb : bs ≠ []) (hr : r.Quiet) (hburst : r.burst = []) :
    (r.readAll c (sendData c a bs)).done = r.done ++ [.data bs] := by
  cases hv : c.variant with
  | fourWire =>
    obtain ⟨-, -, hb', hi⟩ := readAll_sendData4W c a r hv bs hb hr
    rw [done_eq, hb', hi, if_pos rfl, List.append_nil]
  | twoWire =>
    obtain ⟨-, -, hslow, hfast⟩ := readAll_sendData2W c a r hc hv bs hr
    cases hrate : c.rateBoost with
    | true =>
      obtain ⟨hi, hb'⟩ := hfast hrate hb
      rw [done_eq, hb', hi, if_pos rfl, List.append_nil]
    | false =>
      obtain ⟨hi, hb'⟩ := hslow hrate
      rw [done_eq, done_eq r, hb', hi, hburst, List.nil_append, if_neg hb, if_pos rfl, List.append_nil]

theorem log_eq_done (c : Cfg) (trace : List LinkEvent) : log c trace = (logReader c trace).done := rfl

/-- LOG of command bytes and one burst after them, sent between transfers. -/
theorem log_append_commands_burst {c : Cfg} (a : DevAddr) {trace : List LinkEvent} {cmds bs : List Byte}
    (hc : c.codes.ctrlCmd ≠ c.codes.ctrlData) (hidle : (logReader c trace).Idle) (hcmds : cmds ≠ []) (hbs : bs ≠ []) :
    log c (trace ++ sendSeq c a cmds ++ sendData c a bs) = log c trace ++ cmds.map .command ++ [.data bs] := by
  obtain ⟨-, hquiet⟩ := (LogReader.idle_iff_quiet _).1 hidle
  obtain ⟨hquiet', -, hburst, hdone⟩ := LogReader.readAll_sendSeq c a _ cmds hquiet
  rw [if_neg hcmds] at hburst
  have hdata := LogReader.done_sendData c a hc hbs hquiet' hburst
  rw [hdone] at hdata
  rw [log_eq_done, log_eq_done, logReader_append, logReader_append, hdata]

/-- FLUSH on a bus that never stalls, from rest: the next state, whole. -/
theorem exec_flush_eq {s : State} (hl : s.cfg.Legal) (hrate : s.rateSaved = .empty) (hbus : s.BusNeverStalls)
    (hp : s.phase = .ready) :
    exec .flush s = .next { s with
      trace := s.trace ++ sendSeq s.cfg s.addr (windowSeq s.cfg) ++ sendData s.cfg s.addr s.fbBytes
      pins := pinsAfterTransfer s.cfg true (s.fbBytes.getLastD 0) s.pins
      pc := s.pc + 1 } := by
  have hevents : eventsOf .flush s =
      sendSeq s.cfg s.addr (windowSeq s.cfg) ++ sendData s.cfg s.addr s.fbBytes := rfl
  have hpins : (eventsOf .flush s).foldl Pins.after s.pins =
      pinsAfterTransfer s.cfg true (s.fbBytes.getLastD 0) s.pins := by
    rw [hevents, List.foldl_append, pins_sendSeq _ _ _ (windowSeq s.cfg) (List.cons_ne_nil _ _),
      pins_sendData _ _ _ _ (fbBytes_ne_nil hl), pinsAfterTransfer_twice]
  have hrate' : (eventsOf .flush s).foldl SavedRate.after s.rateSaved = s.rateSaved := by
    rw [hevents, List.foldl_append, rate_sendSeq, rate_sendData, hrate, ite_self]
  have hrun : (emitAll (eventsOf .flush s) s).stalled = false := by
    rw [emitAll_of_never_stalls _ _ hbus]
    exact hbus.2
  rw [exec_readyOnly rfl, whenReady_of_ready hp, finish_of_running _ hrun, emitAll_of_never_stalls _ _ hbus, hpins,
    hrate', hevents, ← List.append_assoc]
  rfl

end Sys2Proof.Machine

namespace Sys2Proof.Proofs

open Sys2Proof Sys2Proof.Machine

/-- Settles O22: each of the two maps undoes the other. -/
theorem pixelsAndFramebufferBitsCorrespond : Obligations.PixelsAndFramebufferBitsCorrespond := by
  intro c hl
  refine ⟨fun p hp => ?_, fun a b ha hb => ?_⟩
  · obtain ⟨hlo, hhi⟩ := pixelIndex_inside hl hp
    exact ⟨hlo, hhi, pixelBit_lt p, pixelOfBit_pixelIndex hl hp⟩
  · exact ⟨pixelOfBit_onPanel hl ha hb, pixelIndex_pixelOfBit c a hb, pixelBit_pixelOfBit c a hb⟩

/-- Settles O26: on the panel one byte is written, under the mask of one bit; off the panel none is. -/
theorem setPixelResult : Obligations.SetPixelResult := by
  intro s r x y col hl hw
  refine ⟨fun hp => ?_, fun hp => exec_setPixel_off hp col⟩
  rw [exec_setPixel_on hp, apply_eq (pixelIndex_inside hl hp)]
  refine ⟨s.fb.write _ _, rfl, Memory.write_wf hw _ _, fun b hb => ?_, fun a ha => ?_⟩
  · have hmask := bitMask_getLsbD (pixelBit (rotMap s.cfg r x y)) b (pixelBit_lt _) hb
    rw [Memory.read_write hw.1, if_pos rfl, onByte_getLsbD _ _ _ _ hb, hmask]
    simp only [decide_eq_true_iff]
  · rw [Memory.read_write hw.1, if_neg ha]

/-- Settles O28: a line off the panel is clipped to nothing; a request that draws paints pixels of the panel, whose indices
are inside the framebuffer, and no other request accesses it by index. -/
theorem offPanelRequestsChangeNoByte : Obligations.OffPanelRequestsChangeNoByte := by
  refine ⟨fun s r x y col hp => exec_setPixel_off hp col, fun s r x y len col h => ?_, fun s r x y len col h => ?_,
    fun i s hl => exec_ne_fault hl i _⟩
  · rw [exec_hline, drawRun_of_off_panel fun p hp => ?_]
    · rfl
    · obtain ⟨k, hk0, hk1, rfl⟩ := (hlineRun_covers s.cfg r x y len p).1 hp
      exact h k hk0 hk1
  · rw [exec_vline, drawRun_of_off_panel fun p hp => ?_]
    · rfl
    · obtain ⟨k, hk0, hk1, rfl⟩ := (vlineRun_covers s.cfg r x y len p).1 hp
      exact h k hk0 hk1

/-- Settles O29: a line paints the native run that is the image of its pixels, and pixels are bits of bytes. -/
theorem linesDrawExactlyTheirPixels : Obligations.LinesDrawExactlyTheirPixels := by
  intro s r x y len col hl hw
  exact ⟨drawsPixels_of_paints hl hw (exec_hline s r x y len col) (hline_paints hl r x y len col),
    drawsPixels_of_paints hl hw (exec_vline s r x y len col) (vline_paints hl r x y len col)⟩

/-- Settles O47: FLUSH sends its events whole on a bus that never stalls, and the reader of the trace, between transfers
before them, finds the six commands and the burst. -/
theorem flushSendsTheWindowAndTheFramebuffer : Obligations.FlushSendsTheWindowAndTheFramebuffer := by
  intro s bs hinv hbus hp hlen hbs
  obtain ⟨⟨hl, -, -⟩, -, -, ⟨hrest, -⟩, -⟩ := hinv
  obtain ⟨hrate, hidle⟩ := hrest hbus.2
  have ⟨_, _, _, _, _, hctrl⟩ := hl
  obtain rfl := eq_fbBytes hlen hbs
  exact ⟨exec_flush_eq hl hrate hbus hp,
    log_append_commands_burst s.addr hctrl hidle (List.cons_ne_nil _ _) (fbBytes_ne_nil hl)⟩

end Sys2Proof.Proofs

/-!
PROOFS. The statements of 30_encoding.md: the two round trips of the encoding, the reserved words, what a step does with a
reserved word or with none, what each controller request but FLUSH sends, and the pseudo-instructions.
-/

namespace Sys2Proof

/-! ### A word is its fields (R81) -/

/-- The word of any seven fields; an encoding leaves the middle byte zero (`packWord`). -/
def wordOf (op : BitVec 4) (rot col : BitVec 2) (mid : BitVec 8) (x y low : BitVec 16) : Request :=
  op ++ rot ++ col ++ mid ++ x ++ y ++ low

/-- The low 16 bits: the length, or the operands of formats B, F and S. -/
def lowBits (w : Request) : BitVec 16 := w.extractLsb' 0 16

theorem wordOf_fields (w : Request) :
    wordOf (opField w) (w.extractLsb' 58 2) (w.extractLsb' 56 2) (w.extractLsb' 48 8) (w.extractLsb' 32 16)
      (w.extractLsb' 16 16) (lowBits w) = w := by
  simp only [wordOf, opField, lowBits]
  iterate 6 rw [BitVec.extractLsb'_append_extractLsb'_eq_extractLsb' (by decide)]
  exact BitVec.extractLsb'_eq_self

theorem wordOf_and (op op' : BitVec 4) (rot rot' col col' : BitVec 2) (mid mid' : BitVec 8)
    (x x' y y' low low' : BitVec 16) :
    wordOf op rot col mid x y low &&& wordOf op' rot' col' mid' x' y' low' =
      wordOf (op &&& op') (rot &&& rot') (col &&& col') (mid &&& mid') (x &&& x') (y &&& y') (low &&& low') :=
  Laws.TableRow.packWord_and ..

/-- A field under a mask that is all ones there is zero where the masked word is. -/
theorem extractLsb'_eq_zero_of_and {n : Nat} {w m : BitVec n} (h : w &&& m = 0) (start len : Nat)
    (hm : m.extractLsb' start len = BitVec.allOnes len) : w.extractLsb' start len = 0#len := by
  rw [← BitVec.and_allOnes (x := w.extractLsb' start len), ← hm, ← BitVec.extractLsb'_and, h]
  exact BitVec.extractLsb'_zero

section PackWord
variable (op : BitVec 4) (rot col : BitVec 2) (x y low : BitVec 16)

@[simp] theorem opField_packWord : opField (packWord op rot col x y low) = op := by
  simp only [opField, packWord, BitVec.extractLsb'_append_eq_of_le, Nat.reduceLeDiff, Nat.reduceSub,
    BitVec.extractLsb'_eq_self]

@[simp] theorem rotField_packWord : rotField (packWord op rot col x y low) = Rotation.ofCode rot := by
  simp only [rotField, packWord, BitVec.extractLsb'_append_eq_of_le, Nat.reduceLeDiff, Nat.reduceSub,
    BitVec.extractLsb'_append_eq_right]

@[simp] theorem colField_packWord : colField (packWord op rot col x y low) = Colour.ofCode col := by
  simp only [colField, packWord, BitVec.extractLsb'_append_eq_of_le, Nat.reduceLeDiff, Nat.reduceSub,
    BitVec.extractLsb'_append_eq_right]

@[simp] theorem xField_packWord : xField (packWord op rot col x y low) = x.toInt := by
  simp only [xField, packWord, BitVec.extractLsb'_append_eq_of_le, Nat.reduceLeDiff, Nat.reduceSub,
    BitVec.extractLsb'_append_eq_right]

@[simp] theorem yField_packWord : yField (packWord op rot col x y low) = y.toInt := by
  simp only [yField, packWord, BitVec.extractLsb'_append_eq_of_le, Nat.reduceLeDiff, Nat.reduceSub,
    BitVec.extractLsb'_append_eq_right]

@[simp] theorem lowBits_packWord : lowBits (packWord op rot col x y low) = low :=
  BitVec.extractLsb'_append_eq_right

end PackWord

/-! ### The readers of the low bits -/

section LowBits
variable (w : Request)

theorem lenField_eq : lenField w = (lowBits w).toInt := rfl

/-- A part of the low bits is that part of the word. -/
theorem lowBits_part {start len : Nat} (h : start + len ≤ 16) :
    (lowBits w).extractLsb' start len = w.extractLsb' start len := BitVec.extractLsb'_extractLsb'_of_le h

theorem firstField_eq : firstField w = (lowBits w).extractLsb' 8 8 := (lowBits_part w (by decide)).symm

theorem lastField_eq : lastField w = (lowBits w).extractLsb' 0 8 := (lowBits_part w (by decide)).symm

theorem vccField_eq : vccField w = Supply.ofCode ((lowBits w).extractLsb' 8 1) := by
  rw [lowBits_part w (by decide), vccField]

theorem addrField_eq : addrField w = (lowBits w).extractLsb' 0 7 := (lowBits_part w (by decide)).symm

/-- A one-bit operand is the one-bit field at its place. -/
theorem ofBool_getLsbD {n : Nat} (v : BitVec n) (i : Nat) : BitVec.ofBool (v.getLsbD i) = v.extractLsb' i 1 := by
  have key : ∀ b : BitVec 1, BitVec.ofBool (b == 1#1) = b := by decide
  rw [BitVec.getLsbD_eq_extractLsb', key]

theorem rstField_eq : rstField w = (lowBits w).getLsbD 7 := by
  rw [BitVec.getLsbD_eq_extractLsb', lowBits_part w (by decide), ← BitVec.getLsbD_eq_extractLsb', rstField]

theorem flagField_eq : flagField w = (lowBits w).getLsbD 0 := by
  rw [BitVec.getLsbD_eq_extractLsb', lowBits_part w (by decide), ← BitVec.getLsbD_eq_extractLsb', flagField]

end LowBits

/-! ### The small codes (R84) -/

@[simp] theorem Rotation.ofCode_code (r : Rotation) : Rotation.ofCode r.code = r := by cases r <;> rfl

theorem Rotation.code_ofCode : ∀ v : BitVec 2, (Rotation.ofCode v).code = v := by decide

@[simp] theorem Colour.ofCode_code (c : Colour) : Colour.ofCode c.code = some c := by cases c <;> rfl

theorem Colour.code_of_ofCode : ∀ (v : BitVec 2) (c : Colour), Colour.ofCode v = some c → c.code = v := by
  intro v c
  cases c <;> revert v <;> decide

theorem Colour.ofCode_eq_none_iff : ∀ v : BitVec 2, Colour.ofCode v = none ↔ v.toNat = 3 := by decide

@[simp] theorem Supply.ofCode_code (v : Supply) : Supply.ofCode v.code = v := by cases v <;> rfl

theorem Supply.code_ofCode : ∀ v : BitVec 1, (Supply.ofCode v).code = v := by decide

theorem toInt_ofInt_of_fits {v : Int} (h : Fits16 v) : (BitVec.ofInt 16 v).toInt = v := by
  refine BitVec.toInt_ofInt_eq_self (by decide) ?_ ?_ <;> omega

theorem fits16_toInt (v : BitVec 16) : Fits16 v.toInt := by
  have hlo := BitVec.le_toInt v
  have hhi := BitVec.toInt_lt (x := v)
  omega

theorem wf_setPixel_iff {r : Rotation} {x y : Int} {c : Colour} :
    (Instr.setPixel r x y c).WellFormed ↔ Fits16 x ∧ Fits16 y := by
  simp only [Instr.WellFormed, Instr.wf, Bool.and_eq_true, decide_eq_true_iff]

theorem wf_hline_iff {r : Rotation} {x y len : Int} {c : Colour} :
    (Instr.hline r x y len c).WellFormed ↔ (Fits16 x ∧ Fits16 y) ∧ Fits16 len := by
  simp only [Instr.WellFormed, Instr.wf, Bool.and_eq_true, decide_eq_true_iff]

theorem wf_vline_iff {r : Rotation} {x y len : Int} {c : Colour} :
    (Instr.vline r x y len c).WellFormed ↔ (Fits16 x ∧ Fits16 y) ∧ Fits16 len := by
  simp only [Instr.WellFormed, Instr.wf, Bool.and_eq_true, decide_eq_true_iff]

/-! ### The must-be-zero bits (R82) -/

/-- The must-be-zero bits of a format whose operands stand in the low bits, `m` those of them that are not operand. -/
def zeroLow (m : BitVec 16) : Request := wordOf 0 3 3 0xFF 0xFFFF 0xFFFF m

/-- A mask that covers another requires all the zero bits the other requires. -/
theorem and_eq_zero_of_covers {w m m' : Request} (h : w &&& m = 0) (hm : m &&& m' = m') : w &&& m' = 0 := by
  rw [← hm, ← BitVec.and_assoc, h]
  exact BitVec.zero_and

theorem packWord_and_zeroP (op : BitVec 4) (rot col : BitVec 2) (x y low : BitVec 16) :
    packWord op rot col x y low &&& zeroP = 0 := by
  refine (wordOf_and op 0#4 rot 0#2 col 0#2 0#8 0xFF x 0#16 y 0#16 low 0#16).trans ?_
  simp only [BitVec.and_zero, BitVec.zero_and]
  rfl

theorem packWord_and_zeroPNoLen (op : BitVec 4) (rot col : BitVec 2) (x y : BitVec 16) :
    packWord op rot col x y 0 &&& zeroPNoLen = 0 := by
  refine (wordOf_and op 0#4 rot 0#2 col 0#2 0#8 0xFF x 0#16 y 0#16 0#16 0xFFFF).trans ?_
  simp only [BitVec.and_zero, BitVec.zero_and]
  rfl

theorem encodeLow_and_zeroLow (op : BitVec 4) {low m : BitVec 16} (h : low &&& m = 0) :
    encodeLow op low &&& zeroLow m = 0 := by
  refine (wordOf_and op 0#4 0#2 3 0#2 3 0#8 0xFF 0#16 0xFFFF 0#16 0xFFFF low m).trans ?_
  simp only [BitVec.and_zero, BitVec.zero_and, h]
  rfl

/-- A word whose must-be-zero byte is zero is packed from its fields. -/
theorem packWord_fields {w : Request} (h : w &&& zeroP = 0) :
    packWord (opField w) (w.extractLsb' 58 2) (w.extractLsb' 56 2) (w.extractLsb' 32 16) (w.extractLsb' 16 16)
      (lowBits w) = w := by
  have hmid : w.extractLsb' 48 8 = 0#8 := extractLsb'_eq_zero_of_and h 48 8 rfl
  have hw := wordOf_fields w
  rwa [hmid] at hw

theorem encodeLow_fields {w : Request} (h : w &&& zeroS = 0) : encodeLow (opField w) (lowBits w) = w := by
  have hrot : w.extractLsb' 58 2 = 0#2 := extractLsb'_eq_zero_of_and h 58 2 rfl
  have hcol : w.extractLsb' 56 2 = 0#2 := extractLsb'_eq_zero_of_and h 56 2 rfl
  have hmid : w.extractLsb' 48 8 = 0#8 := extractLsb'_eq_zero_of_and h 48 8 rfl
  have hx : w.extractLsb' 32 16 = 0#16 := extractLsb'_eq_zero_of_and h 32 16 rfl
  have hy : w.extractLsb' 16 16 = 0#16 := extractLsb'_eq_zero_of_and h 16 16 rfl
  have hw := wordOf_fields w
  rwa [hrot, hcol, hmid, hx, hy] at hw

/-! ### Decoding an encoding, format by format (R82, R85) -/

@[simp] theorem checkZero_of_zero {w zero : Request} (h : w &&& zero = 0) (i : Instr) : checkZero w zero i = .ok i :=
  if_pos h

section FormatP
variable (op : BitVec 4) (rot : Rotation) (x y len : Int) (col : Colour)

@[simp] theorem opField_encodeP : opField (encodeP op rot x y len col) = op := opField_packWord ..

@[simp] theorem rotField_encodeP : rotField (encodeP op rot x y len col) = rot :=
  (rotField_packWord ..).trans (Rotation.ofCode_code rot)

@[simp] theorem colField_encodeP : colField (encodeP op rot x y len col) = some col :=
  (colField_packWord ..).trans (Colour.ofCode_code col)

@[simp] theorem encodeP_and_zeroP : encodeP op rot x y len col &&& zeroP = 0 := packWord_and_zeroP ..

@[simp] theorem encodeP_and_zeroPNoLen : encodeP op rot x y 0 col &&& zeroPNoLen = 0 := packWord_and_zeroPNoLen ..

variable {x y len}

@[simp] theorem decodeP_encodeP {zero : Request} (h : encodeP op rot x y len col &&& zero = 0) (mk : Colour → Instr) :
    decodeP (encodeP op rot x y len col) zero mk = .ok (mk col) := by
  simp only [decodeP, if_pos h, colField_encodeP]

@[simp] theorem xField_encodeP (h : Fits16 x) : xField (encodeP op rot x y len col) = x :=
  (xField_packWord ..).trans (toInt_ofInt_of_fits h)

@[simp] theorem yField_encodeP (h : Fits16 y) : yField (encodeP op rot x y len col) = y :=
  (yField_packWord ..).trans (toInt_ofInt_of_fits h)

@[simp] theorem lenField_encodeP (h : Fits16 len) : lenField (encodeP op rot x y len col) = len := by
  rw [lenField_eq, encodeP, lowBits_packWord, toInt_ofInt_of_fits h]

end FormatP

section FormatLow
variable (op : BitVec 4) (low : BitVec 16)

@[simp] theorem opField_encodeLow : opField (encodeLow op low) = op := opField_packWord ..

@[simp] theorem lowBits_encodeLow : lowBits (encodeLow op low) = low := lowBits_packWord ..

end FormatLow

section FormatB
variable (op : BitVec 4) (vcc : Supply) (rst : Bool) (addr : DevAddr)

@[simp] theorem opField_encodeB : opField (encodeB op vcc rst addr) = op := opField_encodeLow ..

@[simp] theorem encodeB_and_zeroB : encodeB op vcc rst addr &&& zeroB = 0 := by
  refine encodeLow_and_zeroLow op (m := 0xFE00) ?_
  cases vcc <;> cases rst <;> revert addr <;> decide

@[simp] theorem vccField_encodeB : vccField (encodeB op vcc rst addr) = vcc := by
  rw [vccField_eq, encodeB, lowBits_encodeLow]
  simp only [BitVec.extractLsb'_append_eq_of_le, Nat.reduceLeDiff, Nat.reduceSub, BitVec.extractLsb'_append_eq_right,
    Supply.ofCode_code]

@[simp] theorem rstField_encodeB : rstField (encodeB op vcc rst addr) = rst := by
  rw [rstField_eq, encodeB, lowBits_encodeLow]
  simp only [BitVec.getLsbD_append, Nat.reduceLT, if_false, if_true, Nat.reduceSub]
  cases rst <;> rfl

@[simp] theorem addrField_encodeB : addrField (encodeB op vcc rst addr) = addr := by
  rw [addrField_eq, encodeB, lowBits_encodeLow]
  exact BitVec.extractLsb'_append_eq_right

end FormatB

section FormatF
variable (op : BitVec 4) (flag : Bool)

@[simp] theorem opField_encodeF : opField (encodeF op flag) = op := opField_encodeLow ..

@[simp] theorem encodeF_and_zeroF : encodeF op flag &&& zeroF = 0 :=
  encodeLow_and_zeroLow op (m := 0xFFFE) (by cases flag <;> decide)

@[simp] theorem flagField_encodeF : flagField (encodeF op flag) = flag := by
  rw [flagField_eq, encodeF, lowBits_encodeLow]
  cases flag <;> rfl

end FormatF

section FormatS
variable (op : BitVec 4) (first last : Byte)

@[simp] theorem opField_encodeS : opField (encodeS op first last) = op := opField_encodeLow ..

@[simp] theorem encodeS_and_zeroS : encodeS op first last &&& zeroS = 0 :=
  encodeLow_and_zeroLow op (m := 0) BitVec.and_zero

@[simp] theorem firstField_encodeS : firstField (encodeS op first last) = first := by
  rw [firstField_eq, encodeS, lowBits_encodeLow]
  exact BitVec.extractLsb'_append_eq_left

@[simp] theorem lastField_encodeS : lastField (encodeS op first last) = last := by
  rw [lastField_eq, encodeS, lowBits_encodeLow]
  exact BitVec.extractLsb'_append_eq_right

end FormatS

@[simp] theorem encodeLow_and_zeroN (op : BitVec 4) : encodeLow op 0#16 &&& zeroN = 0 :=
  encodeLow_and_zeroLow op (m := 0xFFFF) rfl

/-! ### Encoding a decoded word, format by format -/

theorem encodeP_fields {w : Request} {op : BitVec 4} {c : Colour} (hop : opField w = op) (h : w &&& zeroP = 0)
    (hc : colField w = some c) : encodeP op (rotField w) (xField w) (yField w) (lenField w) c = w := by
  rw [encodeP, rotField, xField, yField, lenField_eq, Rotation.code_ofCode, Colour.code_of_ofCode _ _ hc,
    BitVec.ofInt_toInt, BitVec.ofInt_toInt, BitVec.ofInt_toInt, ← hop]
  exact packWord_fields h

/-- The must-be-zero bits of SETPIXEL are those of a line and the whole length field. -/
theorem lenField_eq_zero {w : Request} (h : w &&& zeroPNoLen = 0) : lenField w = 0 := by
  have hlow : w.extractLsb' 0 16 = 0#16 := extractLsb'_eq_zero_of_and h 0 16 rfl
  rw [lenField, hlow]
  rfl

theorem encodeB_fields {w : Request} {op : BitVec 4} (hop : opField w = op) (h : w &&& zeroB = 0) :
    encodeB op (vccField w) (rstField w) (addrField w) = w := by
  have hhigh : w.extractLsb' 9 7 = 0#7 := extractLsb'_eq_zero_of_and h 9 7 rfl
  rw [encodeB, vccField, rstField, addrField, Supply.code_ofCode, ofBool_getLsbD, ← hhigh, ← hop]
  iterate 3 rw [BitVec.extractLsb'_append_extractLsb'_eq_extractLsb' (by decide)]
  exact encodeLow_fields (and_eq_zero_of_covers h rfl)

theorem encodeF_fields {w : Request} {op : BitVec 4} (hop : opField w = op) (h : w &&& zeroF = 0) :
    encodeF op (flagField w) = w := by
  have hhigh : w.extractLsb' 1 15 = 0#15 := extractLsb'_eq_zero_of_and h 1 15 rfl
  rw [encodeF, flagField, ofBool_getLsbD, ← hhigh, ← hop,
    BitVec.extractLsb'_append_extractLsb'_eq_extractLsb' (by decide)]
  exact encodeLow_fields (and_eq_zero_of_covers h rfl)

theorem encodeS_fields {w : Request} {op : BitVec 4} (hop : opField w = op) (h : w &&& zeroS = 0) :
    encodeS op (firstField w) (lastField w) = w := by
  rw [encodeS, firstField, lastField, ← hop, BitVec.extractLsb'_append_extractLsb'_eq_extractLsb' (by decide)]
  exact encodeLow_fields h

theorem encodeLow_zero_of_and_zeroN {w : Request} {op : BitVec 4} (hop : opField w = op) (h : w &&& zeroN = 0) :
    encodeLow op 0 = w := by
  have hlow : lowBits w = 0#16 := extractLsb'_eq_zero_of_and h 0 16 rfl
  have hw := encodeLow_fields (and_eq_zero_of_covers h rfl)
  rwa [hlow, hop] at hw

/-! ### What the decoder can answer (R83, R86, R88) -/

/-- `w` is the encoding of `i`, whose operands fit their fields. -/
def Encodes (i : Instr) (w : Request) : Prop := i.WellFormed ∧ encode i = w

/-- Everything the decoder can answer, by opcode: no opcode; a request of format P, checked for zero bits and colour; or a
request of another format, checked for zero bits. A word that passes the check of its bits encodes what is read from it. -/
theorem decode_cases (w : Request) {op : Nat} (hop : (opField w).toNat = op) :
    ((op = 0x0 ∨ op = 0xE ∨ op = 0xF) ∧ decode w = .error .opcode) ∨
    ((op = 0x1 ∨ op = 0x2 ∨ op = 0x3) ∧ ∃ mk, decode w = decodeP w (Claims.mustBeZero op) mk ∧
      (w &&& Claims.mustBeZero op = 0 → ∀ c, colField w = some c → Encodes (mk c) w)) ∨
    ((0x4 ≤ op ∧ op ≤ 0xD) ∧ ∃ i, decode w = checkZero w (Claims.mustBeZero op) i ∧
      (w &&& Claims.mustBeZero op = 0 → Encodes i w)) := by
  have hlt : op < 16 := hop ▸ (opField w).isLt
  have hop' : opField w = BitVec.ofNat 4 op := by rw [← hop, BitVec.ofNat_toNat, BitVec.setWidth_eq]
  have hx : Fits16 (xField w) := fits16_toInt _
  have hy : Fits16 (yField w) := fits16_toInt _
  have hlen : Fits16 (lenField w) := fits16_toInt _
  have hdecode := decode.eq_def w
  rw [hop] at hdecode
  match op, hlt, hop', hdecode with
  | 0, _, _, hdecode | 14, _, _, hdecode | 15, _, _, hdecode => exact .inl ⟨by decide, hdecode⟩
  | 1, _, hop, hdecode =>
    refine .inr (.inl ⟨by decide, .setPixel (rotField w) (xField w) (yField w), hdecode, fun h c hc => ?_⟩)
    have hw := encodeP_fields hop (and_eq_zero_of_covers h rfl) hc
    rw [lenField_eq_zero h] at hw
    exact ⟨wf_setPixel_iff.2 ⟨hx, hy⟩, hw⟩
  | 2, _, hop, hdecode =>
    exact .inr (.inl ⟨by decide, .hline (rotField w) (xField w) (yField w) (lenField w), hdecode, fun h c hc =>
      ⟨wf_hline_iff.2 ⟨⟨hx, hy⟩, hlen⟩, encodeP_fields hop h hc⟩⟩)
  | 3, _, hop, hdecode =>
    exact .inr (.inl ⟨by decide, .vline (rotField w) (xField w) (yField w) (lenField w), hdecode, fun h c hc =>
      ⟨wf_vline_iff.2 ⟨⟨hx, hy⟩, hlen⟩, encodeP_fields hop h hc⟩⟩)
  | 4, _, hop, hdecode => exact .inr (.inr ⟨by decide, _, hdecode, fun h => ⟨rfl, encodeB_fields hop h⟩⟩)
  | 5, _, hop, hdecode | 6, _, hop, hdecode =>
    exact .inr (.inr ⟨by decide, _, hdecode, fun h => ⟨rfl, encodeF_fields hop h⟩⟩)
  | 7, _, hop, hdecode | 8, _, hop, hdecode | 9, _, hop, hdecode | 10, _, hop, hdecode =>
    exact .inr (.inr ⟨by decide, _, hdecode, fun h => ⟨rfl, encodeS_fields hop h⟩⟩)
  | 11, _, hop, hdecode | 12, _, hop, hdecode | 13, _, hop, hdecode =>
    exact .inr (.inr ⟨by decide, _, hdecode, fun h => ⟨rfl, encodeLow_zero_of_and_zeroN hop h⟩⟩)
  | n + 16, hlt, _, _ => omega

theorem checkZero_ok {w zero : Request} {i j : Instr} (h : checkZero w zero i = .ok j) : w &&& zero = 0 ∧ i = j := by
  unfold checkZero at h
  split at h
  · exact ⟨‹_›, Except.ok.inj h⟩
  · cases h

theorem decodeP_ok {w zero : Request} {mk : Colour → Instr} {j : Instr} (h : decodeP w zero mk = .ok j) :
    w &&& zero = 0 ∧ ∃ c, colField w = some c ∧ mk c = j := by
  unfold decodeP at h
  split at h
  · split at h
    · exact ⟨‹_›, _, ‹_›, Except.ok.inj h⟩
    · cases h
  · cases h

theorem checkZero_error_iff (w zero : Request) (i : Instr) :
    (∃ why, checkZero w zero i = .error why) ↔ w &&& zero ≠ 0 := by
  by_cases h : w &&& zero = 0
  · rw [checkZero_of_zero h]
    exact iff_of_false (fun ⟨_, hwhy⟩ => nomatch hwhy) (not_not_intro h)
  · exact iff_of_true ⟨_, if_neg h⟩ h

theorem decodeP_error_iff (w zero : Request) (mk : Colour → Instr) :
    (∃ why, decodeP w zero mk = .error why) ↔ w &&& zero ≠ 0 ∨ colField w = none := by
  by_cases h : w &&& zero = 0
  · cases hc : colField w <;> simp [decodeP, h, hc]
  · exact iff_of_true ⟨_, if_neg h⟩ (.inl h)

theorem opField_toNat (w : Request) : (opField w).toNat = (w >>> 60).toNat := by
  have hlt := w.isLt
  rw [opField, BitVec.extractLsb'_toNat, BitVec.toNat_ushiftRight, Nat.shiftRight_eq_div_pow]
  omega

theorem colField_eq_none_iff (w : Request) : colField w = none ↔ (w >>> 56).toNat % 4 = 3 := by
  rw [colField, Colour.ofCode_eq_none_iff, BitVec.extractLsb'_toNat, BitVec.toNat_ushiftRight]

/-- A word the decoder accepts encodes what it decodes to. -/
theorem encodes_of_decode {w : Request} {i : Instr} (h : decode w = .ok i) : Encodes i w := by
  obtain ⟨-, hd⟩ | ⟨-, mk, hd, hw⟩ | ⟨-, j, hd, hw⟩ := decode_cases w rfl
  · rw [hd] at h
    cases h
  · obtain ⟨hzero, c, hc, rfl⟩ := decodeP_ok (hd.symm.trans h)
    exact hw hzero c hc
  · obtain ⟨hzero, rfl⟩ := checkZero_ok (hd.symm.trans h)
    exact hw hzero

/-- The decoder rejects exactly the reserved words (R86). -/
theorem reservedWord_iff (w : Request) : Claims.ReservedWord w ↔ ∃ why, decode w = .error why := by
  have hcases := decode_cases w (opField_toNat w)
  unfold Claims.ReservedWord
  generalize (w >>> 60).toNat = op at hcases ⊢
  obtain ⟨hop, hd⟩ | ⟨hop, mk, hd, -⟩ | ⟨hop, i, hd, -⟩ := hcases
  · exact iff_of_true (by omega) ⟨_, hd⟩
  · rw [hd, decodeP_error_iff, colField_eq_none_iff]
    obtain rfl | rfl | rfl := hop <;> simp
  · rw [hd, checkZero_error_iff]
    have hnot : op ≠ 0 ∧ op ≠ 0xE ∧ op ≠ 0xF ∧ ¬(op = 1 ∨ op = 2 ∨ op = 3) := by omega
    tauto

end Sys2Proof

namespace Sys2Proof.Machine

/-! ### Steps that execute nothing -/

theorem step_refuses {s : State} {w : Request} {why : Reserved} (hs : s.stalled = false) (hw : fetch s = some w)
    (hd : decode w = .error why) : step s = .refused (.reservedRequest why) := by
  simp [step, hs, hw, hd]

theorem step_of_no_request {s : State} (h : fetch s = none) : step s = .next s := by
  simp [step, h]

/-! ### Requests that send command bytes (R203) -/

/-- LOG of command bytes sent between transfers: one command item each. -/
theorem log_append_commands {c : Cfg} (a : DevAddr) {trace : List LinkEvent} (bs : List Byte)
    (hidle : (logReader c trace).Idle) : log c (trace ++ sendSeq c a bs) = log c trace ++ bs.map .command := by
  obtain ⟨-, hquiet⟩ := (LogReader.idle_iff_quiet _).1 hidle
  obtain ⟨-, -, -, hdone⟩ := LogReader.readAll_sendSeq c a _ bs hquiet
  rw [log_eq_done, log_eq_done, logReader_append, hdone]

section Ready
variable {s : State} (hinv : s.Inv) (hbus : s.BusNeverStalls) (hp : s.phase = .ready)
include hinv hbus hp

/-- A Ready-only request whose events are those of command bytes completes by sending them, and does nothing else. -/
theorem sendsCommands_of_eventsOf {i : Instr} {bs : List Byte} (hi : i.readyOnly = true) (hbs : bs ≠ [])
    (hevents : eventsOf i s = sendSeq s.cfg s.addr bs) : Claims.SendsCommands i s bs := by
  obtain ⟨-, -, -, ⟨hrest, -⟩, -⟩ := hinv
  obtain ⟨-, hidle⟩ := hrest hbus.2
  have hrun : (emitAll (eventsOf i s) s).stalled = false := by
    rw [emitAll_of_never_stalls _ _ hbus]
    exact hbus.2
  refine ⟨?_, log_append_commands s.addr bs hidle⟩
  rw [exec_readyOnly hi, whenReady_of_ready hp, finish_of_running _ hrun, emitAll_of_never_stalls _ _ hbus, hevents,
    pins_sendSeq _ _ _ _ hbs, rate_sendSeq]
  rfl

end Ready

theorem bySupply_eq_ite (v : Supply) (ext int : Byte) : bySupply v ext int = if v = .ext then ext else int := by
  cases v <;> rfl

/-! ### BEGIN (R191 to R193) -/

theorem LogReader.done_of_burst_nil {r : LogReader} (h : r.burst = []) : r.done = r.items := by
  rw [done_eq, if_pos h, List.append_nil]

section Begin
variable (c : Cfg) (vcc : Supply) (rst : Bool) (a : DevAddr)

/-- BEGIN drives the reset line where it pulses, and leaves the others as its last command byte leaves them. -/
theorem pins_beginEvents (p : Pins) :
    (beginEvents c vcc rst a).foldl Pins.after p = pinsAfterTransfer c false c.codes.opDisplayOn
      { p with rst := if c.rstWired && rst then c.rstLevels.l3 else p.rst } := by
  rw [beginEvents, List.foldl_append, List.foldl_append, pins_openLink,
    pins_sendSeq c a _ (initSeq c vcc) (List.cons_ne_nil _ _)]
  cases c.rstWired && rst <;> rfl

/-- BEGIN's events are read, from rest, as the pulse if there is one, the open, and the initialisation bytes. -/
theorem log_beginEvents :
    log c (beginEvents c vcc rst a) =
      (if c.rstWired && rst then [.pulse c.rstLevels.l1 c.rstLevels.l2 c.rstLevels.l3] else []) ++
        [.opened (if c.variant = .fourWire then none else some a)] ++ (initSeq c vcc).map .command := by
  have hstart := LogReader.quiet_start priorLevels
  have hpulse : ∃ r : LogReader, r.Quiet ∧
      (LogReader.start priorLevels).readAll c (if c.rstWired && rst then resetPulse c else []) = r ∧
      r.done = if c.rstWired && rst then [.pulse c.rstLevels.l1 c.rstLevels.l2 c.rstLevels.l3] else [] := by
    split
    · obtain ⟨hquiet, -, hburst, hitems⟩ := LogReader.readAll_resetPulse c _ hstart
      exact ⟨_, hquiet, rfl, (LogReader.done_of_burst_nil hburst).trans hitems⟩
    · exact ⟨_, hstart, rfl, rfl⟩
  obtain ⟨r, hquiet, hread, hdone⟩ := hpulse
  obtain ⟨hquiet', -, hburst, hitems⟩ := LogReader.readAll_openLink c a r hquiet
  obtain ⟨-, -, -, hseq⟩ := LogReader.readAll_sendSeq c a _ (initSeq c vcc) hquiet'
  rw [log_eq_done, logReader, beginEvents, LogReader.readAll_append, LogReader.readAll_append, hread, hseq,
    LogReader.done_of_burst_nil hburst, hitems, hdone]

/-- BEGIN on a bus that never stalls, from a machine that has sent nothing: the next state, whole. -/
theorem exec_begin_eq {s : State} (htrace : s.trace = []) (hrate : s.rateSaved = .empty) (hbus : s.BusNeverStalls)
    (hp : s.phase = .uninitialized) :
    exec (.begin vcc rst a) s = .next { s with
      phase := .ready, supply := vcc, addr := a, trace := beginEvents s.cfg vcc rst a
      pins := pinsAfterTransfer s.cfg false s.cfg.codes.opDisplayOn
        { s.pins with rst := if s.cfg.rstWired && rst then s.cfg.rstLevels.l3 else s.pins.rst }
      pc := s.pc + 1 } := by
  have hbus' : (s.latch vcc a).BusNeverStalls := hbus
  have hrate' : (beginEvents s.cfg vcc rst a).foldl SavedRate.after s.rateSaved = s.rateSaved := by
    rw [hrate, (wholeTransfers_beginEvents s.cfg a vcc rst).rate]
  have hrun : (emitAll (beginEvents s.cfg vcc rst a) (s.latch vcc a)).stalled = false := by
    rw [emitAll_of_never_stalls _ _ hbus']
    exact hbus'.2
  have hrun' : (emitAll (beginEvents s.cfg vcc rst a) (s.latch vcc a)).becomeReady.stalled = false := by
    rwa [becomeReady_stalled]
  rw [exec_begin, whenUninitialized_of_uninitialized hp, finish_of_running _ hrun', becomeReady_of_running _ hrun,
    emitAll_of_never_stalls _ _ hbus', latch_pins, latch_rateSaved, latch_trace, pins_beginEvents, hrate', htrace]
  rfl

end Begin

/-! ### The pseudo-instructions (R90) -/

theorem readRequest_pixel (ops : List Text) : readRequest "PIXEL".toList ops = readPseudoPixel ops := rfl

theorem readRequest_setPixel (ops : List Text) : readRequest "SETPIXEL".toList ops = readPixel ops := rfl

theorem readRequest_hline (ops : List Text) : readRequest "HLINE".toList ops = readLine .hline ops := rfl

theorem readRequest_vline (ops : List Text) : readRequest "VLINE".toList ops = readLine .vline ops := rfl

/-- SETPIXEL with rotation `0` written reads as PIXEL. -/
theorem readPixel_zero (x y c : Text) : readPixel ["0".toList, x, y, c] = readPseudoPixel [x, y, c] := rfl

/-- A line with rotation `0` written reads as the line with four operands. -/
theorem readLine_zero (mk : Rotation → Int → Int → Int → Colour → Instr) (x y l c : Text) :
    readLine mk ["0".toList, x, y, l, c] = readLine mk [x, y, l, c] := rfl

end Sys2Proof.Machine

namespace Sys2Proof.Proofs

open Sys2Proof Sys2Proof.Machine

/-- Settles O2: the decoder goes by the opcode, finds the must-be-zero bits zero, and reads back each field packed. -/
theorem decodeOfEncodeIsTheRequest : Obligations.DecodeOfEncodeIsTheRequest := by
  intro i hi
  cases i with
  | setPixel rot x y col =>
    obtain ⟨hx, hy⟩ := wf_setPixel_iff.1 hi
    simp [encode, decode, xField_encodeP _ _ _ hx, yField_encodeP _ _ _ hy]
  | hline rot x y len col =>
    obtain ⟨⟨hx, hy⟩, hlen⟩ := wf_hline_iff.1 hi
    simp [encode, decode, xField_encodeP _ _ _ hx, yField_encodeP _ _ _ hy, lenField_encodeP _ _ _ hlen]
  | vline rot x y len col =>
    obtain ⟨⟨hx, hy⟩, hlen⟩ := wf_vline_iff.1 hi
    simp [encode, decode, xField_encodeP _ _ _ hx, yField_encodeP _ _ _ hy, lenField_encodeP _ _ _ hlen]
  | begin vcc rst addr => simp [encode, decode]
  | invert flag | dim flag => simp [encode, decode]
  | scrollR first last | scrollL first last | scrollDR first last | scrollDL first last => simp [encode, decode]
  | stopScroll | flush | clear => simp [encode, decode]

/-- Settles O3: a word that passes the check of its format is packed from the fields it is read by. -/
theorem encodeOfDecodeIsTheWord : Obligations.EncodeOfDecodeIsTheWord := by
  intro w i h
  exact encodes_of_decode h

/-- Settles O4, by what the decoder can answer for each opcode. -/
theorem reservedWordsAreExactlyTheRejected : Obligations.ReservedWordsAreExactlyTheRejected := reservedWord_iff

/-- Settles O5: the decoder rejects the word, and the step passes the reason on. -/
theorem stepRefusesReservedWords : Obligations.StepRefusesReservedWords := by
  intro s w hs hw hreserved
  obtain ⟨why, hd⟩ := (reservedWord_iff w).1 hreserved
  exact ⟨why, step_refuses hs hw hd⟩

/-- Settles O40: from a machine that has sent nothing, BEGIN's events are all of TRACE, and they are the pulse, the open and
the 25 bytes. -/
theorem beginBringsTheControllerUp : Obligations.BeginBringsTheControllerUp := by
  intro s vcc rst a hinv hbus hp c pulse bytes trace
  obtain ⟨-, ⟨huninit, -⟩, -, ⟨hrest, -⟩, -⟩ := hinv
  obtain ⟨htrace, -⟩ := huninit hp
  obtain ⟨hrate, -⟩ := hrest hbus.2
  have hbytes : bytes = initSeq c vcc := by simp only [initSeq, bySupply_eq_ite]; rfl
  have hopen : [if c.variant = .fourWire then .open4 else .open2 a] = openLink c a := by
    unfold openLink
    cases c.variant <;> rfl
  have hevents : trace = beginEvents c vcc rst a := by
    simp only [trace, hopen, hbytes]
    rfl
  refine ⟨rfl, ?_, ?_⟩
  · rw [hevents]
    exact exec_begin_eq vcc rst a htrace hrate hbus hp
  · rw [hevents, hbytes]
    exact log_beginEvents c vcc rst a

/-- Settles O42: INVERT's events are its one byte's. -/
theorem invertSendsOnePolarityCommand : Obligations.InvertSendsOnePolarityCommand := by
  intro s flag hinv hbus hp
  exact sendsCommands_of_eventsOf hinv hbus hp rfl (List.cons_ne_nil _ _) rfl

/-- Settles O43: DIM's events are its two bytes', the second by the latched supply mode. -/
theorem dimSendsTheContrastCommand : Obligations.DimSendsTheContrastCommand := by
  intro s flag hinv hbus hp
  rw [← bySupply_eq_ite]
  exact sendsCommands_of_eventsOf hinv hbus hp rfl (List.cons_ne_nil _ _) rfl

/-- Settles O44: the events of SCROLLR and SCROLLL are their eight bytes'. -/
theorem horizontalScrollsSendEightBytes : Obligations.HorizontalScrollsSendEightBytes := by
  intro s first last hinv hbus hp
  exact ⟨sendsCommands_of_eventsOf hinv hbus hp rfl (List.cons_ne_nil _ _) rfl,
    sendsCommands_of_eventsOf hinv hbus hp rfl (List.cons_ne_nil _ _) rfl⟩

/-- Settles O45: the events of SCROLLDR and SCROLLDL are their ten bytes'. -/
theorem diagonalScrollsSendTenBytes : Obligations.DiagonalScrollsSendTenBytes := by
  intro s first last hinv hbus hp
  exact ⟨sendsCommands_of_eventsOf hinv hbus hp rfl (List.cons_ne_nil _ _) rfl,
    sendsCommands_of_eventsOf hinv hbus hp rfl (List.cons_ne_nil _ _) rfl⟩

/-- Settles O46: STOPSCROLL's events are its one byte's. -/
theorem stopScrollSendsOneByte : Obligations.StopScrollSendsOneByte := by
  intro s hinv hbus hp
  exact sendsCommands_of_eventsOf hinv hbus hp rfl (List.cons_ne_nil _ _) rfl

/-- Settles O1: the decoder's answer to each word, by computation. -/
theorem wordsDecodeAsWritten : Obligations.WordsDecodeAsWritten := by
  unfold Obligations.WordsDecodeAsWritten
  decide

/-- Settles O7: nothing stands at `pc`, so nothing is fetched, whether the machine hangs or not. -/
theorem stepWithoutRequestChangesNothing : Obligations.StepWithoutRequestChangesNothing := by
  intro s h
  exact step_of_no_request (List.getElem?_eq_none h)

/-- Settles O53: both spellings are read by one reader, to which `0` is rotation 0. -/
theorem pseudoInstructionsExpand : Obligations.PseudoInstructionsExpand := by
  intro x y l c
  refine ⟨rfl, ?_, ?_, ?_⟩
  · rw [readRequest_pixel, readRequest_setPixel, readPixel_zero]
  · rw [readRequest_hline, readRequest_hline, readLine_zero]
  · rw [readRequest_vline, readRequest_vline, readLine_zero]

end Sys2Proof.Proofs

/-!
PROOFS. The statements of 40_framebuffer_ops.md: the rotations, Apply and the masks of a vertical run, reading a pixel back,
lines as repeated SETPIXEL, and drawing the same twice.
-/

namespace Sys2Proof.Machine

/-! ### The rotations (R121) -/

/-- Native to logical coordinates: the inverse of `rotMap`. -/
def rotUnmap (c : Cfg) (r : Rotation) (p : Int × Int) : Int × Int :=
  match r with
  | .r0 => p
  | .r1 => (p.2, c.width - 1 - p.1)
  | .r2 => (c.width - 1 - p.1, c.height - 1 - p.2)
  | .r3 => (c.height - 1 - p.2, p.1)

theorem rotMap_rotUnmap (c : Cfg) (r : Rotation) (p : Int × Int) :
    rotMap c r (rotUnmap c r p).1 (rotUnmap c r p).2 = p := by
  cases r <;> simp [rotMap, rotUnmap]

theorem rotUnmap_rotMap (c : Cfg) (r : Rotation) (q : Int × Int) : rotUnmap c r (rotMap c r q.1 q.2) = q := by
  cases r <;> simp [rotMap, rotUnmap]

theorem rotMap_injective (c : Cfg) (r : Rotation) : Function.Injective fun q : Int × Int => rotMap c r q.1 q.2 :=
  Function.LeftInverse.injective (rotUnmap_rotMap c r)

/-! ### Apply (R120) and the masks (R129) -/

/-- The mask of CLEAR is the complement, so CLEAR is and-not. -/
theorem onByte_clear (v mask : Byte) : onByte .clear v mask = v &&& ~~~mask :=
  congrArg (v &&& ·) (BitVec.allOnes_xor (x := mask))

theorem onByte_empty_mask (c : Colour) (v : Byte) : onByte c v 0 = v := by
  cases c with
  | set => exact BitVec.or_zero
  | clear => exact BitVec.and_allOnes
  | invert => exact BitVec.xor_zero

/-- Bits outside the mask pass through, past the byte's end too. -/
theorem onByte_getLsbD_of_unmasked (c : Colour) (v : Byte) {mask : Byte} {b : Nat} (h : mask.getLsbD b = false) :
    (onByte c v mask).getLsbD b = v.getLsbD b := by
  by_cases hb : b < 8
  · rw [onByte_getLsbD _ _ _ _ hb, h, if_neg Bool.false_ne_true]
  · rw [BitVec.getLsbD_of_ge _ _ (by omega), BitVec.getLsbD_of_ge _ _ (by omega)]

/-- Writing back the byte read leaves a canonical memory as it is. -/
theorem Memory.write_read_self {m : Memory} (h : m.Wf) (a : Nat) : m.write a (m.read a) = m := by
  refine Memory.ext_of_read (Memory.write_wf h _ _) h fun b => ?_
  rw [Memory.read_write h.1]
  split
  · rw [‹b = a›]
  · rfl

theorem leadMask_of_reaches_end {m h : Nat} (hmh : 8 ≤ m + h) : leadMask m h = 0xFF#8 <<< m := if_neg (by omega)

/-- Inside one band the leading mask is the trailing mask of the run's height, moved up to the run's first bit. -/
theorem leadMask_inside_band {m h : Nat} (hm : 1 ≤ m) (hh : 1 ≤ h) (hmh : m + h ≤ 8) :
    leadMask m h = tailMask h <<< m := by
  refine BitVec.eq_of_getLsbD_eq fun b hb => ?_
  rw [leadMask_getLsbD h (by omega) hb, BitVec.getLsbD_shiftLeft, tailMask_getLsbD (by omega) (by omega)]
  rw [Bool.eq_iff_iff]
  simp only [Bool.and_eq_true, Bool.not_eq_true', decide_eq_true_eq, decide_eq_false_iff_not]
  omega

/-! ### Framebuffers with the same pixels -/

theorem pixelValue_pixelOfBit (c : Cfg) (m : Memory) (a : Nat) {b : Nat} (hb : b < 8) :
    pixelValue c m (pixelOfBit c a b) = (m.read a).getLsbD b := by
  rw [pixelValue, pixelIndex_pixelOfBit _ _ hb, pixelBit_pixelOfBit _ _ hb, Int.toNat_natCast]

/-- Canonical framebuffers that agree on every pixel of the panel, and past the framebuffer's end, are the same. -/
theorem fb_ext_of_pixels {c : Cfg} (hl : c.Legal) {m n : Memory} (hm : m.Wf) (hn : n.Wf)
    (houtside : ∀ a, c.fbLen ≤ a → m.read a = n.read a)
    (hpixels : ∀ p, OnPanel c p → pixelValue c m p = pixelValue c n p) : m = n := by
  refine Memory.ext_of_read hm hn fun a => ?_
  by_cases ha : a < c.fbLen
  · refine BitVec.eq_of_getLsbD_eq fun b hb => ?_
    have hp := hpixels _ (pixelOfBit_onPanel hl ha hb)
    rwa [pixelValue_pixelOfBit _ _ _ hb, pixelValue_pixelOfBit _ _ _ hb] at hp
  · exact houtside a (by omega)

theorem pixelAt_on {c : Cfg} {r : Rotation} {x y : Int} (hp : OnPanel c (rotMap c r x y)) (m : Memory) :
    pixelAt c m r x y = some (pixelValue c m (rotMap c r x y)) := if_pos hp

theorem pixelAt_off {c : Cfg} {r : Rotation} {x y : Int} (hp : ¬OnPanel c (rotMap c r x y)) (m : Memory) :
    pixelAt c m r x y = none := if_neg hp

/-- Only a pixel of the panel can be read. -/
theorem pixelAt_some {c : Cfg} {m : Memory} {r : Rotation} {x y : Int} {v : Bool} (h : pixelAt c m r x y = some v) :
    OnPanel c (rotMap c r x y) ∧ pixelValue c m (rotMap c r x y) = v := by
  by_cases hp : OnPanel c (rotMap c r x y)
  · rw [pixelAt_on hp] at h
    exact ⟨hp, Option.some.inj h⟩
  · rw [pixelAt_off hp] at h
    cases h

/-! ### Painting once more, and painting twice (R127, R131) -/

theorem onBit_twice_of_ne_invert {col : Colour} (h : col ≠ .invert) (v : Bool) : onBit col (onBit col v) = onBit col v := by
  cases col with
  | set | clear => rfl
  | invert => exact absurd rfl h

theorem onBit_invert_twice (v : Bool) : onBit .invert (onBit .invert v) = v := Bool.not_not v

section Painted
variable {c : Cfg} {col : Colour} {P : Int × Int → Prop} {m n k : Memory}

/-- There is one way to paint a set of pixels. -/
theorem Painted.unique (hl : c.Legal) (hn : Painted c col P m n) (hk : Painted c col P m k) : n = k := by
  refine fb_ext_of_pixels hl hn.wf hk.wf (fun a ha => (hn.outside a ha).trans (hk.outside a ha).symm) fun p hp => ?_
  by_cases hP : P p
  · rw [hn.on p hp hP, hk.on p hp hP]
  · rw [hn.off p hp hP, hk.off p hp hP]

/-- SET and CLEAR are idempotent. -/
theorem Painted.idempotent (hl : c.Legal) (hcol : col ≠ .invert) (hn : Painted c col P m n) (hk : Painted c col P n k) :
    k = n := by
  refine fb_ext_of_pixels hl hk.wf hn.wf hk.outside fun p hp => ?_
  by_cases hP : P p
  · rw [hk.on p hp hP, hn.on p hp hP, onBit_twice_of_ne_invert hcol]
  · exact hk.off p hp hP

/-- INVERT is an involution. -/
theorem Painted.involution (hl : c.Legal) (hm : m.Wf) (hn : Painted c .invert P m n) (hk : Painted c .invert P n k) :
    k = m := by
  refine fb_ext_of_pixels hl hk.wf hm (fun a ha => (hk.outside a ha).trans (hn.outside a ha)) fun p hp => ?_
  by_cases hP : P p
  · rw [hk.on p hp hP, hn.on p hp hP, onBit_invert_twice]
  · rw [hk.off p hp hP, hn.off p hp hP]

/-- A bit whose pixel is not painted keeps its value, inside the framebuffer and past its end. -/
theorem Painted.bit_off (hl : c.Legal) (hn : Painted c col P m n) (a : Nat) {b : Nat} (hb : b < 8)
    (hP : ¬P (pixelOfBit c a b)) : (n.read a).getLsbD b = (m.read a).getLsbD b := by
  by_cases ha : a < c.fbLen
  · have hoff := hn.off _ (pixelOfBit_onPanel hl ha hb) hP
    rwa [pixelValue_pixelOfBit _ _ _ hb, pixelValue_pixelOfBit _ _ _ hb] at hoff
  · rw [hn.outside a (by omega)]

end Painted

/-! ### Requests that paint -/

/-- In configuration `c` the request completes and paints the pixels of `P` in the colour it is given, changing nothing but
the framebuffer and `pc`. -/
def PaintsPixels (draw : Colour → Instr) (c : Cfg) (P : Int × Int → Prop) : Prop :=
  ∀ (s : State) (col : Colour), s.cfg = c → s.fb.Wf →
    ∃ m, exec (draw col) s = .next (s.withFb m).advance ∧ Painted c col P s.fb m

theorem paintsPixels_of_paints {draw : Colour → Instr} {c : Cfg} {P : Int × Int → Prop}
    (h : ∀ (s : State) (col : Colour), s.cfg = c → ∃ r, exec (draw col) s = complete r ∧ Paints s col P r) :
    PaintsPixels draw c P := by
  rintro s col rfl hw
  obtain ⟨r, hexec, hr⟩ := h s col rfl
  obtain ⟨m, hm, hpainted⟩ := hr.complete_eq
  exact ⟨m, hexec.trans hm, hpainted hw⟩

section Requests
variable {c : Cfg} (hl : c.Legal) (r : Rotation) (x y len : Int)
include hl

theorem setPixel_paintsPixels : PaintsPixels (.setPixel r x y ·) c (· = rotMap c r x y) := by
  refine paintsPixels_of_paints fun s col hs => ?_
  subst hs
  by_cases hp : OnPanel s.cfg (rotMap s.cfg r x y)
  · exact ⟨_, exec_setPixel_on hp col, apply_bitMask_paints hl col hp⟩
  · refine ⟨.ok s, exec_setPixel_off hp col, Paints.of_none ?_⟩
    rintro p hon rfl
    exact hp hon

theorem hline_paintsPixels :
    PaintsPixels (.hline r x y len ·) c fun p => ∃ k, 0 ≤ k ∧ k < len ∧ rotMap c r (x + k) y = p :=
  paintsPixels_of_paints fun s col hs => by
    subst hs
    exact ⟨_, exec_hline s r x y len col, hline_paints hl r x y len col⟩

theorem vline_paintsPixels :
    PaintsPixels (.vline r x y len ·) c fun p => ∃ k, 0 ≤ k ∧ k < len ∧ rotMap c r x (y + k) = p :=
  paintsPixels_of_paints fun s col hs => by
    subst hs
    exact ⟨_, exec_vline s r x y len col, vline_paints hl r x y len col⟩

end Requests

section PaintsPixels
variable {draw : Colour → Instr} {s : State} {P : Int × Int → Prop} (hl : s.cfg.Legal) (hw : s.fb.Wf)
  (h : PaintsPixels draw s.cfg P)
include hw h

/-- Two paintings of the same pixels, one after the other. -/
theorem PaintsPixels.twice (col col' : Colour) : ∃ m n,
    exec (draw col) s = .next (s.withFb m).advance ∧
    exec (draw col') (s.withFb m).advance = .next ((s.withFb m).advance.withFb n).advance ∧
    Painted s.cfg col P s.fb m ∧ Painted s.cfg col' P m n := by
  obtain ⟨m, hexec, hm⟩ := h s col rfl hw
  obtain ⟨n, hexec', hn⟩ := h (s.withFb m).advance col' rfl hm.wf
  exact ⟨m, n, hexec, hexec', hm, hn⟩

include hl

theorem PaintsPixels.idempotent {col : Colour} (hcol : col ≠ .invert) :
    ∃ t u, exec (draw col) s = .next t ∧ exec (draw col) t = .next u ∧ u.fb = t.fb := by
  obtain ⟨m, n, hexec, hexec', hm, hn⟩ := h.twice hw col col
  exact ⟨_, _, hexec, hexec', hm.idempotent hl hcol hn⟩

theorem PaintsPixels.involution :
    ∃ t u, exec (draw .invert) s = .next t ∧ exec (draw .invert) t = .next u ∧ u.fb = s.fb := by
  obtain ⟨m, n, hexec, hexec', hm, hn⟩ := h.twice hw .invert .invert
  exact ⟨_, _, hexec, hexec', hm.involution hl hw hn⟩

end PaintsPixels

/-! ### Requests one after another -/

theorem execAll_cons {i : Instr} {s t : State} (h : exec i s = .next t) (rest : List Instr) :
    execAll (i :: rest) s = execAll rest t := by
  simp only [execAll, h]

theorem execAll_two {i j : Instr} {s t u : State} (hi : exec i s = .next t) (hj : exec j t = .next u) :
    execAll [i, j] s = .next u := by
  rw [execAll_cons hi, execAll_cons hj, execAll]

/-- The pixel of two SETPIXELs reads as the second made it of what the first made it. -/
theorem execAll_setPixel_twice {s : State} {r : Rotation} {x y : Int} (hl : s.cfg.Legal) (hw : s.fb.Wf)
    (hp : OnPanel s.cfg (rotMap s.cfg r x y)) (col col' : Colour) :
    ∃ u, execAll [.setPixel r x y col, .setPixel r x y col'] s = .next u ∧
      pixelAt u.cfg u.fb r x y = some (onBit col' (onBit col (pixelValue s.cfg s.fb (rotMap s.cfg r x y)))) := by
  obtain ⟨m, n, hexec, hexec', hm, hn⟩ := (setPixel_paintsPixels hl r x y).twice hw col col'
  refine ⟨_, execAll_two hexec hexec', (pixelAt_on hp n).trans (congrArg some ?_)⟩
  rw [hn.on _ hp rfl, hm.on _ hp rfl]

/-- The SETPIXELs of distinct logical points paint those points. The rotation keeps them distinct, so that no pixel takes
the colour twice, which INVERT would show. -/
theorem execAll_setPixels_painted {s : State} (hl : s.cfg.Legal) (hw : s.fb.Wf) (r : Rotation) (col : Colour)
    {points : List (Int × Int)} (hdistinct : points.Nodup) :
    ∃ u, execAll (points.map fun q => .setPixel r q.1 q.2 col) s = .next u ∧
      Painted s.cfg col (fun p => ∃ q ∈ points, rotMap s.cfg r q.1 q.2 = p) s.fb u.fb := by
  induction points generalizing s with
  | nil => exact ⟨s, rfl, Painted.of_none hw fun p _ => by simp⟩
  | cons q points ih =>
    obtain ⟨hq, hrest⟩ := List.nodup_cons.1 hdistinct
    obtain ⟨m, hexec, hm⟩ := setPixel_paintsPixels hl r q.1 q.2 s col rfl hw
    obtain ⟨u, hu, hpainted⟩ := ih (s := (s.withFb m).advance) hl hm.wf hrest
    have hdisjoint : ∀ p, p = rotMap s.cfg r q.1 q.2 → ¬∃ q' ∈ points, rotMap s.cfg r q'.1 q'.2 = p := by
      rintro p rfl ⟨q', hq', heq⟩
      exact hq (rotMap_injective s.cfg r heq ▸ hq')
    refine ⟨u, (execAll_cons hexec _).trans hu, (hm.trans hpainted hdisjoint).congr fun p _ => ?_⟩
    rw [List.exists_mem_cons_iff, eq_comm]
    rfl

/-- A request that paints the pixels at `point 0` to `point (len - 1)`, all distinct, leaves the framebuffer as the
SETPIXELs of those points in turn do (R127). -/
theorem line_eq_setPixels {s : State} (hl : s.cfg.Legal) (hw : s.fb.Wf) (r : Rotation) (col : Colour) (len : Int)
    {draw : Colour → Instr} {point : Int → Int × Int} (hpoint : Function.Injective point)
    (h : PaintsPixels draw s.cfg fun p => ∃ k, 0 ≤ k ∧ k < len ∧ rotMap s.cfg r (point k).1 (point k).2 = p) :
    ∃ t u, exec (draw col) s = .next t ∧
      execAll ((List.range len.toNat).map fun k : Nat => .setPixel r (point k).1 (point k).2 col) s = .next u ∧
      t.fb = u.fb := by
  have hdistinct : ((List.range len.toNat).map fun k : Nat => point k).Nodup :=
    List.nodup_range.map (hpoint.comp Nat.cast_injective)
  obtain ⟨m, hexec, hm⟩ := h s col rfl hw
  obtain ⟨u, hu, hpainted⟩ := execAll_setPixels_painted hl hw r col hdistinct
  rw [List.map_map] at hu
  refine ⟨_, u, hexec, hu, hm.unique hl (hpainted.congr fun p _ => ?_)⟩
  simp only [List.mem_map, List.mem_range, exists_exists_and_eq_and]
  constructor
  · rintro ⟨k, hk0, hk1, hp⟩
    exact ⟨k.toNat, by omega, by rwa [Int.toNat_of_nonneg hk0]⟩
  · rintro ⟨k, hk, hp⟩
    exact ⟨k, by omega, by omega, hp⟩

end Sys2Proof.Machine

namespace Sys2Proof.Proofs

open Sys2Proof Sys2Proof.Machine

/-- Settles O23: every rotation has an inverse, and each canvas bound is a bound of one native coordinate. -/
theorem rotationMapsTheCanvasOntoThePanel : Obligations.RotationMapsTheCanvasOntoThePanel := by
  intro c
  refine ⟨fun x y => ?_, fun r p => ?_, fun x y => ⟨Iff.rfl, ?_⟩, fun x y => ⟨?_, ?_⟩⟩
  · simp only [rotMap, sub_right_comm, and_self]
  · refine ⟨rotUnmap c r p, rotMap_rotUnmap c r p, fun q hq => ?_⟩
    rw [← hq, rotUnmap_rotMap]
  all_goals
    simp only [OnPanel, rotMap]
    omega

/-- Settles O24: `Apply` writes one byte, the colour's under the mask. -/
theorem applyChangesTheMaskedBits : Obligations.ApplyChangesTheMaskedBits := by
  intro s i mask c hw hi
  have hread : (s.fb.write i.toNat (onByte c (s.fb.read i.toNat) mask)).read i.toNat =
      onByte c (s.fb.read i.toNat) mask := by
    rw [Memory.read_write hw.1, if_pos rfl]
  refine ⟨_, apply_eq hi mask c, ?set, ?clear, ?invert, ?_, ?_, ?_⟩
  case set | invert =>
    rintro rfl
    exact hread
  case clear =>
    rintro rfl
    rw [hread, onByte_clear]
  · intro b hb
    rw [hread, onByte_getLsbD_of_unmasked _ _ hb]
  · intro a ha
    rw [Memory.read_write hw.1, if_neg ha]
  · rintro rfl
    rw [onByte_empty_mask, Memory.write_read_self hw]

/-- Settles O27: SETPIXEL paints the one pixel that is read back, and each other bit is another pixel. -/
theorem setPixelReadBack : Obligations.SetPixelReadBack := by
  intro s r x y col hl hw
  by_cases hp : OnPanel s.cfg (rotMap s.cfg r x y)
  · obtain ⟨m, hexec, hm⟩ := setPixel_paintsPixels hl r x y s col rfl hw
    refine ⟨_, hexec, fun old hold => ?_, fun hoff => absurd hp hoff⟩
    obtain ⟨-, hvalue⟩ := pixelAt_some hold
    have hback : pixelAt s.cfg m r x y = some (onBit col old) := by
      rw [pixelAt_on hp, hm.on _ hp rfl, hvalue]
    refine ⟨?set, ?clear, ?invert, fun a b hb hne => hm.bit_off hl a hb fun heq => hne ?other⟩
    case set | clear | invert =>
      rintro rfl
      exact hback
    case other =>
      rw [← heq, pixelIndex_pixelOfBit _ _ hb, pixelBit_pixelOfBit _ _ hb]
      exact ⟨rfl, rfl⟩
  · refine ⟨_, exec_setPixel_off hp col, fun old hold => absurd (pixelAt_some hold).1 hp, fun _ => ⟨?_, rfl⟩⟩
    exact pixelAt_off hp _

/-- Settles O30: the line and the SETPIXELs paint the same pixels, and there is one way to paint them. -/
theorem linesEqualRepeatedSetPixel : Obligations.LinesEqualRepeatedSetPixel := by
  intro s r x y len col hl hw
  refine ⟨?_, ?_⟩
  · have hpoint : Function.Injective fun k : Int => (x + k, y) := fun j k h => by simpa using h
    exact line_eq_setPixels hl hw r col len hpoint (hline_paintsPixels hl r x y len)
  · have hpoint : Function.Injective fun k : Int => (x, y + k) := fun j k h => by simpa using h
    exact line_eq_setPixels hl hw r col len hpoint (vline_paintsPixels hl r x y len)

/-- Settles O31: each of the three requests paints a set of pixels that its operands fix, and painting a set again with SET
or CLEAR changes nothing, with INVERT undoes it. -/
theorem repeatedDrawing : Obligations.RepeatedDrawing := by
  intro s r x y len hl hw
  refine ⟨fun draw hdraw => ?_, fun hp => ?_⟩
  · have hpaints : ∃ P, PaintsPixels draw s.cfg P := by
      simp only [List.mem_cons, List.not_mem_nil, or_false] at hdraw
      obtain rfl | rfl | rfl := hdraw
      · exact ⟨_, setPixel_paintsPixels hl r x y⟩
      · exact ⟨_, hline_paintsPixels hl r x y len⟩
      · exact ⟨_, vline_paintsPixels hl r x y len⟩
    obtain ⟨P, hP⟩ := hpaints
    exact ⟨fun col hcol => hP.idempotent hl hw hcol, hP.involution hl hw⟩
  · exact ⟨execAll_setPixel_twice hl hw hp .set .clear, execAll_setPixel_twice hl hw hp .clear .set⟩

/-- Settles O25: a run of 8 rows or more reaches the band's end, and inside a band the two masks are one. -/
theorem maskTables : Obligations.MaskTables := by
  refine ⟨fun h hh => ?_, by decide, fun m h hm hh hmh => leadMask_inside_band hm hh hmh⟩
  have hlead : ∀ m, leadMask m h = 0xFF#8 <<< m := fun m => leadMask_of_reaches_end (by omega)
  simp only [hlead]
  decide

end Sys2Proof.Proofs

/-!
PROOFS. The statements of 41_transport.md: the events of a command byte and of a burst on either link, and the logical
stream of the Transport's calls.
-/

namespace Sys2Proof.Machine

/-! ### A command byte on the 2-wire link (R160) -/

section TwoWire
variable {c : Cfg} (hv : c.variant = .twoWire)
include hv

theorem sendCommand_twoWire (a : DevAddr) (b : Byte) :
    sendCommand c a b = [.start a, .byte c.codes.ctrlCmd, .byte b, .stop] := by
  rw [sendCommand, hv]
  rfl

theorem sendData_twoWire (a : DevAddr) (bs : List Byte) :
    sendData c a bs = (if c.rateBoost then [.rateMax] else []) ++
      (payloads bs).flatMap (transaction a c.codes.ctrlData) ++ (if c.rateBoost then [.rateRestore] else []) := by
  rw [sendData, hv]
  rfl

/-- The 2-wire link drives none of the lines. -/
theorem pinsAfterTransfer_twoWire (dc : Level) (b : Byte) (p : Pins) : pinsAfterTransfer c dc b p = p := by
  rw [pinsAfterTransfer, hv]

end TwoWire

/-- Sending command bytes on a bus that never stalls: the next state, whole. -/
theorem sendCommands_eq {s : State} (hbus : s.BusNeverStalls) {bs : List Byte} (hbs : bs ≠ []) :
    sendCommands bs s = { s with
      trace := s.trace ++ sendSeq s.cfg s.addr bs
      pins := pinsAfterTransfer s.cfg false (bs.getLastD 0) s.pins } := by
  rw [sendCommands, emitAll_of_never_stalls _ _ hbus, pins_sendSeq _ _ _ _ hbs, rate_sendSeq]

/-- On the 2-wire link TRACE is all that sending command bytes writes. -/
theorem sendCommands_twoWire {s : State} (hv : s.cfg.variant = .twoWire) (hbus : s.BusNeverStalls) {bs : List Byte}
    (hbs : bs ≠ []) : sendCommands bs s = { s with trace := s.trace ++ sendSeq s.cfg s.addr bs } := by
  rw [sendCommands_eq hbus hbs, pinsAfterTransfer_twoWire hv]

/-! ### A byte and a burst on the 4-wire link (R153 to R157) -/

section FourWire
variable {c : Cfg} (hv : c.variant = .fourWire)
include hv

theorem sendCommand_fourWire (a : DevAddr) (b : Byte) :
    sendCommand c a b = [.pin .dc false, .pin .cs false] ++ xferByte c b ++ [.pin .cs true] := by
  rw [sendCommand, hv]
  rfl

theorem sendData_fourWire (a : DevAddr) (bs : List Byte) :
    sendData c a bs = [.pin .dc true, .pin .cs false] ++ bs.flatMap (xferByte c) ++ [.pin .cs true] := by
  rw [sendData, hv]
  rfl

end FourWire

theorem xferByte_accelerated {c : Cfg} (h : c.hwAccel = true) (b : Byte) : xferByte c b = [.shift b] := if_pos h

theorem xferByte_bitBanged {c : Cfg} (h : c.hwAccel = false) (b : Byte) : xferByte c b = bitBang b :=
  if_neg (ne_true_of_eq_false h)

theorem xferByte_length (c : Cfg) (b : Byte) : (xferByte c b).length = if c.hwAccel then 1 else 24 := by
  cases h : c.hwAccel with
  | true => rw [xferByte_accelerated h]; rfl
  | false => rw [xferByte_bitBanged h]; rfl

theorem xferBytes_length (c : Cfg) (bs : List Byte) :
    (bs.flatMap (xferByte c)).length = (if c.hwAccel then 1 else 24) * bs.length := by
  induction bs with
  | nil => rfl
  | cons b bs ih =>
    rw [List.flatMap_cons, List.length_append, xferByte_length, ih, List.length_cons, Nat.mul_succ, Nat.add_comm]

/-- The only lines a byte drives are CLK and MOSI (R156, R157). -/
theorem line_of_pin_mem_xferByte {c : Cfg} {b : Byte} {l : Line} {v : Level} (h : LinkEvent.pin l v ∈ xferByte c b) :
    l = .clk ∨ l = .mosi := by
  cases hacc : c.hwAccel with
  | true =>
    rw [xferByte_accelerated hacc] at h
    simp at h
  | false =>
    rw [xferByte_bitBanged hacc, bitBang, List.mem_flatMap] at h
    obtain ⟨j, -, h⟩ := h
    simp only [List.mem_cons, LinkEvent.pin.injEq, List.not_mem_nil, or_false] at h
    tauto

theorem pin_notMem_xferBytes (c : Cfg) (bs : List Byte) {l : Line} (hclk : l ≠ .clk) (hmosi : l ≠ .mosi) (v : Level) :
    LinkEvent.pin l v ∉ bs.flatMap (xferByte c) := by
  intro h
  obtain ⟨b, -, hb⟩ := List.mem_flatMap.1 h
  exact (line_of_pin_mem_xferByte hb).elim hclk hmosi

/-! ### The sub-transactions of a burst on the 2-wire link (R162) -/

theorem payloads_length (bs : List Byte) : (payloads bs).length = (bs.length + 15) / 16 := by
  simp [payloads]

/-- Every sub-transaction but the last is full (D18). -/
theorem payloads_dropLast_full (bs : List Byte) : ∀ p ∈ (payloads bs).dropLast, p.length = 16 := by
  intro p hp
  obtain ⟨k, hk, rfl⟩ := List.mem_iff_getElem.1 hp
  rw [List.length_dropLast, payloads_length] at hk
  have hfull : 16 * k + 16 ≤ bs.length := by omega
  simp only [List.getElem_dropLast, payloads, List.getElem_map, List.getElem_range, List.length_take, List.length_drop]
  omega

/-! ### The logical stream of a sequence of calls (R170 to R173) -/

theorem logFrom_eq_done (c : Cfg) (r : LogReader) (es : List LinkEvent) : logFrom c r es = (r.readAll c es).done := rfl

/-- A reader that has just started has no item and no burst. -/
theorem LogReader.done_start (p : Pins) : (LogReader.start p).done = [] := rfl

/-- The item the display controller is to receive for a call, without an open's address. -/
def Call.item : Call → LogItem
  | .openLink => .opened none
  | .command b => .command b
  | .data bs => .data bs

/-- Each burst leaves its own mark in the trace: by chip-select on the 4-wire link, by the rate request on the 2-wire
link (R171, R172). -/
def MarksBursts (c : Cfg) : Prop := c.variant = .fourWire ∨ c.rateBoost = true

/-- Two calls in direct succession are both bursts only where bursts leave a mark. -/
def KeepsApart (c : Cfg) (call next : Call) : Prop :=
  ∀ bs bs', call = .data bs → next = .data bs' → MarksBursts c

section Calls
variable {c : Cfg} (a : DevAddr) {r : LogReader} (hc : c.codes.ctrlCmd ≠ c.codes.ctrlData)

include hc in
/-- A burst leaves the reader between transfers, and where bursts leave a mark no burst open. -/
theorem LogReader.readAll_sendData_quiet {bs : List Byte} (hbs : bs ≠ []) (hr : r.Quiet) :
    (r.readAll c (sendData c a bs)).Quiet ∧ (MarksBursts c → (r.readAll c (sendData c a bs)).burst = []) := by
  cases hv : c.variant with
  | fourWire =>
    obtain ⟨hquiet, -, hburst, -⟩ := readAll_sendData4W c a r hv bs hbs hr
    exact ⟨hquiet, fun _ => hburst⟩
  | twoWire =>
    obtain ⟨hquiet, -, -, hfast⟩ := readAll_sendData2W c a r hc hv bs hr
    refine ⟨hquiet, fun hmark => ?_⟩
    have hrate : c.rateBoost = true := hmark.resolve_left (by rw [hv]; decide)
    exact (hfast hrate hbs).2

include hc in
/-- A call is read as its item, from between transfers to between transfers; a burst must not find another one open, and
leaves itself open only where bursts leave no mark. -/
theorem LogReader.readAll_call {call : Call} (hempty : call ≠ .data []) (hr : r.Quiet)
    (hopen : ∀ bs, call = .data bs → r.burst = []) :
    let r' := r.readAll c (call.events c a)
    r'.Quiet ∧ ((∀ bs, call = .data bs → MarksBursts c) → r'.burst = []) ∧
      ∃ item : LogItem, item.withoutAddr = call.item ∧ r'.done = r.done ++ [item] := by
  cases call with
  | openLink =>
    obtain ⟨hquiet, -, hburst, hitems⟩ := readAll_openLink c a r hr
    exact ⟨hquiet, fun _ => hburst, _, rfl, (done_of_burst_nil hburst).trans hitems⟩
  | command b =>
    obtain ⟨hquiet, -, hburst, hitems⟩ := readAll_sendCommand c a r b hr
    exact ⟨hquiet, fun _ => hburst, _, rfl, (done_of_burst_nil hburst).trans hitems⟩
  | data bs =>
    have hbs : bs ≠ [] := fun h => hempty (congrArg Call.data h)
    obtain ⟨hquiet, hburst⟩ := readAll_sendData_quiet a hc hbs hr
    exact ⟨hquiet, fun hmark => hburst (hmark bs rfl), _, rfl, done_sendData c a hc hbs hr (hopen bs rfl)⟩

include hc in
/-- Calls are read as their items, one each, in order. -/
theorem LogReader.done_calls {calls : List Call} (hempty : Call.data [] ∉ calls)
    (hchain : calls.IsChain (KeepsApart c)) (hr : r.Quiet)
    (hopen : ∀ bs, calls.head? = some (.data bs) → r.burst = []) :
    (r.readAll c (calls.flatMap (Call.events c a))).done.map LogItem.withoutAddr =
      r.done.map LogItem.withoutAddr ++ calls.map Call.item := by
  induction calls generalizing r with
  | nil => simp
  | cons call calls ih =>
    obtain ⟨hnext, hchain⟩ := List.isChain_cons.1 hchain
    obtain ⟨hne, hempty⟩ := not_or.1 (mt List.mem_cons.2 hempty)
    have hopen' : ∀ bs, call = .data bs → r.burst = [] := fun bs h => hopen bs (congrArg some h)
    obtain ⟨hquiet, hburst, item, hitem, hdone⟩ := readAll_call a hc (Ne.symm hne) hr hopen'
    have hclosed : ∀ bs', calls.head? = some (.data bs') → (r.readAll c (call.events c a)).burst = [] :=
      fun bs' hhead => hburst fun bs h => hnext _ hhead bs bs' h rfl
    rw [List.flatMap_cons, readAll_append, ih hempty hchain hquiet hclosed, hdone]
    simp [hitem]

end Calls

/-- The logical stream of calls is their items, whatever the link and the levels before. -/
theorem logFrom_calls {c : Cfg} {calls : List Call} (hchain : calls.IsChain (KeepsApart c)) (a : DevAddr) (p : Pins)
    (hc : c.codes.ctrlCmd ≠ c.codes.ctrlData) (hempty : Call.data [] ∉ calls) :
    (logFrom c (LogReader.start p) (calls.flatMap (Call.events c a))).map LogItem.withoutAddr =
      calls.map Call.item := by
  rw [logFrom_eq_done, LogReader.done_calls a hc hempty hchain (LogReader.quiet_start p) fun _ _ => rfl,
    LogReader.done_start, List.map_nil, List.nil_append]

theorem isChain_keepsApart_of_marksBursts {c : Cfg} (h : MarksBursts c) (calls : List Call) :
    calls.IsChain (KeepsApart c) :=
  List.isChain_iff_forall_rel_of_append_cons_cons.2 fun _ _ _ _ _ _ _ _ _ => h

theorem isChain_keepsApart_of_no_direct_bursts (c : Cfg) {calls : List Call}
    (h : ∀ pre bs bs' post, calls ≠ pre ++ [.data bs, .data bs'] ++ post) : calls.IsChain (KeepsApart c) := by
  refine List.isChain_iff_forall_rel_of_append_cons_cons.2 ?_
  rintro _ _ pre post hcalls bs bs' rfl rfl
  exact absurd (hcalls.trans (by simp)) (h pre bs bs' post)

end Sys2Proof.Machine

namespace Sys2Proof.Proofs

open Sys2Proof Sys2Proof.Machine

/-- Settles O35: between the two edges of chip-select stand the bytes, which drive only CLK and MOSI. -/
theorem fourWireBurstHoldsChipSelect : Obligations.FourWireBurstHoldsChipSelect := by
  intro c a bs hv
  refine ⟨bs.flatMap (xferByte c), sendData_fourWire hv a bs, fun v => ⟨?_, ?_⟩, xferBytes_length c bs⟩
  · exact pin_notMem_xferBytes c bs (by decide) (by decide) v
  · exact pin_notMem_xferBytes c bs (by decide) (by decide) v

/-- Settles O36: the sub-transactions are those of `payloads`. -/
theorem twoWireBurstIsSplitExactly : Obligations.TwoWireBurstIsSplitExactly := by
  intro c a bs hv
  exact ⟨payloads bs, sendData_twoWire hv a bs, LogReader.payloads_flatten bs, payloads_length bs,
    LogReader.payloads_parts bs, payloads_dropLast_full bs⟩

/-- Settles O37: a reader that has just started is between transfers, with no burst open. -/
theorem logOfOneCall : Obligations.LogOfOneCall := by
  intro c a p
  have hquiet := LogReader.quiet_start p
  refine ⟨fun b => ?_, fun bs hbs hc => ?_⟩
  · obtain ⟨-, -, hburst, hitems⟩ := LogReader.readAll_sendCommand c a _ b hquiet
    exact (LogReader.done_of_burst_nil hburst).trans hitems
  · exact LogReader.done_sendData c a hc hbs hquiet rfl

/-- Settles O38: on either link the stream is the calls' items; on the 4-wire link chip-select marks each burst, on the
2-wire link the rate request does, or else no burst follows another directly. -/
theorem linksAreInterchangeable : Obligations.LinksAreInterchangeable := by
  intro c accel a a' p p' calls hc hempty hapart
  have hfour : calls.IsChain (KeepsApart { c with variant := .fourWire, hwAccel := accel }) :=
    isChain_keepsApart_of_marksBursts (.inl rfl) calls
  have htwo : calls.IsChain (KeepsApart { c with variant := .twoWire }) := by
    obtain hrate | hapart := hapart
    · have hmark : MarksBursts { c with variant := .twoWire } := .inr hrate
      exact isChain_keepsApart_of_marksBursts hmark calls
    · exact isChain_keepsApart_of_no_direct_bursts _ hapart
  exact (logFrom_calls hfour a p hc hempty).trans (logFrom_calls htwo a' p' hc hempty).symm

/-- Settles O33: sending writes TRACE alone, and each byte sent is a transaction of its own. -/
theorem twoWireCommandIsItsOwnTransaction : Obligations.TwoWireCommandIsItsOwnTransaction := by
  intro s b b' hv hbus
  have hsent : ∀ b bs, sendCommands (b :: bs) s = { s with trace := s.trace ++ sendSeq s.cfg s.addr (b :: bs) } :=
    fun b bs => sendCommands_twoWire hv hbus (List.cons_ne_nil b bs)
  simp only [hsent, sendSeq, List.flatMap_cons, List.flatMap_nil, sendCommand_twoWire hv, List.cons_append,
    List.nil_append, and_self]

/-- Settles O34, by the one byte between the edges of chip-select: handed over whole, or bit by bit. -/
theorem fourWireCommandEvents : Obligations.FourWireCommandEvents := by
  intro c a b hv
  rw [sendCommand_fourWire hv]
  refine ⟨fun hacc => ?_, fun hacc => ?_⟩
  · rw [xferByte_accelerated hacc]
    rfl
  · rw [xferByte_bitBanged hacc]
    rfl

end Sys2Proof.Proofs

/-!
PROOFS. The statements of 42_controller_ops.md: the phase guards, CLEAR and FLUSH after it, command sequences, the reset
line, and that no feature request leaves state behind for a later one.
-/

namespace Sys2Proof.Machine

/-! ### Refusals (R190, R242) -/

theorem whenReady_refuses {s : State} (h : s.phase ≠ .ready) (f : State → State) :
    whenReady s f = .refused .notReady := by
  obtain ⟨hp, -⟩ | ⟨-, hrefused⟩ := whenReady_cases s f
  · exact absurd hp h
  · exact hrefused

theorem whenUninitialized_refuses {s : State} (h : s.phase ≠ .uninitialized) (f : State → State) :
    whenUninitialized s f = .refused .beginNotUninitialized := by
  obtain ⟨hp, -⟩ | ⟨-, hrefused⟩ := whenUninitialized_cases s f
  · exact absurd hp h
  · exact hrefused

/-- The end of a drawing request is a next state or a fault. -/
theorem complete_ne_refused (r : Except Fault State) (why : Refusal) : complete r ≠ .refused why := by
  cases r with
  | error f => nofun
  | ok u => nofun

/-- The machine with every framebuffer byte zero, before CLEAR advances `pc`. -/
def State.cleared (s : State) : State := s.withFb (zeroFill s.cfg.fbLen s.fb)

theorem exec_clear (s : State) : exec .clear s = .next s.cleared.advance := rfl

/-- A drawing request is refused in no phase, in any configuration. -/
theorem exec_ne_refused_of_draws {i : Instr} (hd : i.draws = true) (s : State) (why : Refusal) :
    exec i s ≠ .refused why := by
  cases i with
  | setPixel r x y col =>
    by_cases hp : OnPanel s.cfg (rotMap s.cfg r x y)
    · rw [exec_setPixel_on hp]
      exact complete_ne_refused _ why
    · rw [exec_setPixel_off hp]
      nofun
  | hline r x y len col => exact complete_ne_refused _ why
  | vline r x y len col => exact complete_ne_refused _ why
  | clear =>
    rw [exec_clear]
    nofun
  | begin | invert | dim | scrollR | scrollL | scrollDR | scrollDL | stopScroll | flush => cases hd

/-! ### CLEAR (R202) -/

theorem Memory.zeroFill_twice {m : Memory} (hw : m.Wf) (n : Nat) : zeroFill n (zeroFill n m) = zeroFill n m := by
  have hw' := zeroFill_wf n hw
  refine ext_of_read (zeroFill_wf n hw') hw' fun a => ?_
  rw [read_zeroFill n hw', read_zeroFill n hw]
  split <;> rfl

/-- The bytes FLUSH sends after a CLEAR. -/
theorem fbBytes_cleared {s : State} (hw : s.fb.Wf) : s.cleared.fbBytes = List.replicate s.cfg.fbLen 0x00 := by
  refine (eq_fbBytes List.length_replicate fun i hi => ?_).symm
  have hi : i < s.cfg.fbLen := by rwa [List.length_replicate] at hi
  rw [List.getElem_replicate, State.cleared, withFb_fb, Memory.read_zeroFill _ hw, if_pos hi]

/-- FLUSH on a bus that never stalls, from rest: what LOG gains. -/
theorem exec_flush_log {s : State} (hl : s.cfg.Legal) (hrest : s.AtRest) (hbus : s.BusNeverStalls)
    (hp : s.phase = .ready) :
    ∃ t, exec .flush s = .next t ∧
      log t.cfg t.trace = log s.cfg s.trace ++ (windowSeq s.cfg).map .command ++ [.data s.fbBytes] := by
  obtain ⟨hrate, hidle⟩ := hrest
  have ⟨_, _, _, _, _, hctrl⟩ := hl
  exact ⟨_, exec_flush_eq hl hrate hbus hp,
    log_append_commands_burst s.addr hctrl hidle (List.cons_ne_nil _ _) (fbBytes_ne_nil hl)⟩

/-! ### Command sequences (R203) -/

theorem logFrom_sendSeq (c : Cfg) (a : DevAddr) (p : Pins) (bs : List Byte) :
    logFrom c (LogReader.start p) (sendSeq c a bs) = bs.map .command := by
  obtain ⟨-, -, -, hdone⟩ := LogReader.readAll_sendSeq c a _ bs (LogReader.quiet_start p)
  rw [logFrom_eq_done, hdone, LogReader.done_start, List.nil_append]

theorem sendSeq_twoWire {c : Cfg} (hv : c.variant = .twoWire) (a : DevAddr) (bs : List Byte) :
    sendSeq c a bs = bs.flatMap fun b => [.start a, .byte c.codes.ctrlCmd, .byte b, .stop] :=
  congrArg (bs.flatMap ·) (funext (sendCommand_twoWire hv a))

/-- The byte itself drives only CLK and MOSI, so its call has one falling and one rising edge of chip-select. -/
theorem count_cs_sendCommand {c : Cfg} (hv : c.variant = .fourWire) (a : DevAddr) (b : Byte) (v : Level) :
    (sendCommand c a b).count (.pin .cs v) = 1 := by
  have hbyte : (xferByte c b).count (.pin .cs v) = 0 :=
    List.count_eq_zero.2 fun h => (line_of_pin_mem_xferByte h).elim nofun nofun
  rw [sendCommand_fourWire hv, List.count_append, List.count_append, hbyte]
  cases v <;> rfl

/-- On the 4-wire link each byte of a sequence has its own chip-select pulse. -/
theorem count_cs_sendSeq {c : Cfg} (hv : c.variant = .fourWire) (a : DevAddr) (bs : List Byte) (v : Level) :
    (sendSeq c a bs).count (.pin .cs v) = bs.length := by
  rw [sendSeq]
  induction bs with
  | nil => rfl
  | cons b bs ih =>
    rw [List.flatMap_cons, List.count_append, count_cs_sendCommand hv, ih, List.length_cons, Nat.add_comm]

/-! ### The reset line (R192, R28) -/

/-- None of the events writes the reset line. -/
def KeepsResetLine (es : List LinkEvent) : Prop := ∀ v, LinkEvent.pin .rst v ∉ es

theorem KeepsResetLine.append {es fs : List LinkEvent} (h : KeepsResetLine es) (g : KeepsResetLine fs) :
    KeepsResetLine (es ++ fs) := fun v hmem => (List.mem_append.1 hmem).elim (h v) (g v)

theorem KeepsResetLine.flatMap {α : Type} {f : α → List LinkEvent} (h : ∀ x, KeepsResetLine (f x)) (xs : List α) :
    KeepsResetLine (xs.flatMap f) := fun v hmem =>
  have ⟨x, _, hx⟩ := List.mem_flatMap.1 hmem
  h x v hx

theorem rst_after {e : LinkEvent} (h : ∀ v, .pin .rst v ≠ e) (p : Pins) : (p.after e).rst = p.rst := by
  cases e with
  | pin l v =>
    cases l with
    | rst => exact absurd rfl (h v)
    | cs | dc | clk | mosi => rfl
  | open4 | open2 | shift | start | byte | stop | rateMax | rateRestore | delay => rfl

/-- Emitting events that do not write the reset line leaves it, whatever the bus does. -/
theorem rst_emitAll {es : List LinkEvent} (h : KeepsResetLine es) (s : State) :
    (emitAll es s).pins.rst = s.pins.rst := by
  induction es generalizing s with
  | nil => rfl
  | cons e es ih =>
    have he : (emit s e).pins.rst = s.pins.rst := by
      obtain ⟨-, he⟩ | ⟨-, -, -, he⟩ | ⟨-, n, he, -⟩ := emit_cases s e <;> rw [he]
      · rfl
      · exact rst_after (fun v hv => h v (hv ▸ List.mem_cons_self)) s.pins
    rw [emitAll_cons, ih (fun v hv => h v (List.mem_cons_of_mem e hv)), he]

theorem keepsResetLine_xferByte (c : Cfg) (b : Byte) : KeepsResetLine (xferByte c b) :=
  fun _ h => (line_of_pin_mem_xferByte h).elim nofun nofun

theorem keepsResetLine_transaction (a : DevAddr) (ctrl : Byte) (payload : List Byte) :
    KeepsResetLine (transaction a ctrl payload) := by
  simp [KeepsResetLine, transaction]

theorem keepsResetLine_sendCommand (c : Cfg) (a : DevAddr) (b : Byte) : KeepsResetLine (sendCommand c a b) := by
  cases hv : c.variant with
  | fourWire =>
    rw [sendCommand_fourWire hv]
    exact KeepsResetLine.append (.append (by simp [KeepsResetLine]) (keepsResetLine_xferByte c b))
      (by simp [KeepsResetLine])
  | twoWire =>
    rw [sendCommand_twoWire hv]
    simp [KeepsResetLine]

theorem keepsResetLine_sendSeq (c : Cfg) (a : DevAddr) (bs : List Byte) : KeepsResetLine (sendSeq c a bs) :=
  .flatMap (keepsResetLine_sendCommand c a) bs

theorem keepsResetLine_sendData (c : Cfg) (a : DevAddr) (bs : List Byte) : KeepsResetLine (sendData c a bs) := by
  cases hv : c.variant with
  | fourWire =>
    rw [sendData_fourWire hv]
    exact KeepsResetLine.append (.append (by simp [KeepsResetLine]) (.flatMap (keepsResetLine_xferByte c) bs))
      (by simp [KeepsResetLine])
  | twoWire =>
    have hparts := KeepsResetLine.flatMap (keepsResetLine_transaction a c.codes.ctrlData) (payloads bs)
    rw [sendData_twoWire hv]
    exact KeepsResetLine.append (.append (by split <;> simp [KeepsResetLine]) hparts)
      (by split <;> simp [KeepsResetLine])

theorem keepsResetLine_openLink (c : Cfg) (a : DevAddr) : KeepsResetLine (openLink c a) := by
  unfold openLink
  split <;> simp [KeepsResetLine]

theorem keepsResetLine_eventsOf {i : Instr} (hi : i.readyOnly = true) (s : State) : KeepsResetLine (eventsOf i s) := by
  obtain ⟨bs, -, hes | hes⟩ := eventsOf_readyOnly hi s <;> rw [hes]
  · exact keepsResetLine_sendSeq _ _ bs
  · exact (keepsResetLine_sendSeq _ _ bs).append (keepsResetLine_sendData _ _ _)

/-- Without a pulse BEGIN opens and sends command bytes only. -/
theorem keepsResetLine_beginEvents {c : Cfg} {rst : Bool} (h : ¬(c.rstWired && rst) = true) (vcc : Supply)
    (a : DevAddr) : KeepsResetLine (beginEvents c vcc rst a) := by
  rw [beginEvents, if_neg h]
  exact (keepsResetLine_openLink c a).append (keepsResetLine_sendSeq c a _)

theorem pinsAfterTransfer_rst (c : Cfg) (dc : Level) (b : Byte) (p : Pins) :
    (pinsAfterTransfer c dc b p).rst = p.rst := by
  unfold pinsAfterTransfer
  split <;> rfl

/-- A BEGIN that pulses and completes leaves the reset line at the pulse's third level. -/
theorem exec_begin_pulse_rst {vcc : Supply} {a : DevAddr} {s t : State} (hs : s.stalled = false)
    (hwired : s.cfg.rstWired = true) (h : exec (.begin vcc true a) s = .next t) (hrun : t.stalled = false) :
    t.pins.rst = s.cfg.rstLevels.l3 := by
  rw [exec_begin] at h
  obtain ⟨-, rfl⟩ := whenUninitialized_next h
  rw [finish_stalled, becomeReady_stalled] at hrun
  rw [finish_pins, becomeReady_pins]
  obtain ⟨sent, -, -, hpins, -, ⟨rfl, -⟩ | ⟨hhang, -⟩⟩ :=
    emitAll_cases (beginEvents s.cfg vcc true a) (s.latch vcc a) hs
  · rw [hpins, pins_beginEvents, pinsAfterTransfer_rst, hwired]
    rfl
  · rw [hrun] at hhang
    cases hhang

/-- Every request but a BEGIN that pulses leaves the reset line, whether it completes or hangs. -/
theorem exec_keeps_rst {i : Instr} {s t : State} (hi : ∀ vcc a, i = .begin vcc true a → s.cfg.rstWired = false)
    (h : exec i s = .next t) : t.pins.rst = s.pins.rst := by
  obtain ⟨-, u, ⟨m, rfl, -, -⟩, rfl⟩ | ⟨hr, -, rfl⟩ | ⟨vcc, rst, a, rfl, -, rfl⟩ := exec_next_cases h
  · rfl
  · rw [finish_pins, rst_emitAll (keepsResetLine_eventsOf hr s)]
  · have hpulse : ¬(s.cfg.rstWired && rst) = true := by
      cases rst with
      | false => simp
      | true => simp [hi vcc a rfl]
    rw [finish_pins, becomeReady_pins, rst_emitAll (keepsResetLine_beginEvents hpulse vcc a), latch_pins]

/-! ### No feature state (R204) -/

theorem exec_readyOnly_frame {j : Instr} {s t : State} (hj : j.readyOnly = true) (h : exec j s = .next t) :
    t.cfg = s.cfg ∧ t.phase = s.phase ∧ t.supply = s.supply ∧ t.addr = s.addr ∧ t.fb = s.fb := by
  rw [exec_readyOnly hj] at h
  obtain ⟨-, rfl⟩ := whenReady_next h
  simp

theorem trace_emitAll_of_never_stalls {s : State} (hbus : s.BusNeverStalls) (es : List LinkEvent) :
    (emitAll es s).trace = s.trace ++ es := by
  rw [emitAll_of_never_stalls _ _ hbus]

section SameRegisters
variable {s s' : State} (hcfg : s.cfg = s'.cfg) (hsupply : s.supply = s'.supply) (haddr : s.addr = s'.addr)
include hcfg hsupply haddr

/-- The events of a request are fixed by the configuration, SUPPLY, ADDR and, for FLUSH, the framebuffer. -/
theorem eventsOf_congr {i : Instr} (hfb : i = .flush → s.fb = s'.fb) : eventsOf i s = eventsOf i s' := by
  cases i with
  | flush => simp only [eventsOf, State.fbBytes, hcfg, haddr, hfb rfl]
  | setPixel | hline | vline | begin | clear => rfl
  | invert | dim | scrollR | scrollL | scrollDR | scrollDL | stopScroll => simp only [eventsOf, hcfg, haddr, hsupply]

/-- Where PHASE agrees too, a controller request completes in both states and sends the same. -/
theorem exec_sends_the_same {i : Instr} {t : State} (hd : i.draws = false) (hphase : s.phase = s'.phase)
    (hfb : i = .flush → s.fb = s'.fb) (hbus : s.BusNeverStalls) (hbus' : s'.BusNeverStalls) (h : exec i s = .next t) :
    ∃ t' sent, exec i s' = .next t' ∧ t.trace = s.trace ++ sent ∧ t'.trace = s'.trace ++ sent := by
  obtain ⟨hd', -⟩ | ⟨hr, hp, rfl⟩ | ⟨vcc, rst, a, rfl, hp, rfl⟩ := exec_next_cases h
  · rw [hd] at hd'
    cases hd'
  · refine ⟨(emitAll (eventsOf i s') s').finish, eventsOf i s, ?_, ?_, ?_⟩
    · rw [exec_readyOnly hr, whenReady_of_ready (hphase ▸ hp)]
    · rw [finish_trace, trace_emitAll_of_never_stalls hbus]
    · rw [finish_trace, trace_emitAll_of_never_stalls hbus', eventsOf_congr hcfg hsupply haddr hfb]
  · have hlatch : (s.latch vcc a).BusNeverStalls := hbus
    have hlatch' : (s'.latch vcc a).BusNeverStalls := hbus'
    refine ⟨(emitAll (beginEvents s'.cfg vcc rst a) (s'.latch vcc a)).becomeReady.finish,
      beginEvents s.cfg vcc rst a, ?_, ?_, ?_⟩
    · rw [exec_begin, whenUninitialized_of_uninitialized (hphase ▸ hp)]
    · rw [finish_trace, becomeReady_trace, trace_emitAll_of_never_stalls hlatch, latch_trace]
    · rw [finish_trace, becomeReady_trace, trace_emitAll_of_never_stalls hlatch', latch_trace, hcfg]

end SameRegisters

end Sys2Proof.Machine

namespace Sys2Proof.Proofs

open Sys2Proof Sys2Proof.Machine

/-- Settles O15: outside its phase each guard refuses, and no drawing request has one. -/
theorem phaseGuardsRefuse : Obligations.PhaseGuardsRefuse := by
  intro s
  refine ⟨fun i hi hp => ?_, fun vcc rst a hp => ?_, fun i why hd => exec_ne_refused_of_draws hd s why⟩
  · rw [exec_readyOnly hi, whenReady_refuses hp]
  · rw [exec_begin, whenUninitialized_refuses hp]

/-- Settles O32: CLEAR zeroes the bytes below FB_LEN, and zeroing them again changes nothing. -/
theorem clearZeroesTheFramebuffer : Obligations.ClearZeroesTheFramebuffer := by
  intro s hw
  have hread := Memory.read_zeroFill s.cfg.fbLen hw
  refine ⟨zeroFill s.cfg.fbLen s.fb, exec_clear s, Memory.zeroFill_wf _ hw, fun a ha => ?_, fun a ha => ?_, ?_⟩
  · rw [hread, if_pos ha]
  · rw [hread, if_neg (by omega)]
  · rw [exec_clear, State.cleared, Memory.zeroFill_twice hw]
    rfl

/-- Settles O39, byte by byte: each one's events are its own Transport call's. -/
theorem sendSeqSendsEachByteOnItsOwn : Obligations.SendSeqSendsEachByteOnItsOwn := by
  intro c a p bs
  exact ⟨logFrom_sendSeq c a p bs, rfl, fun hv => ⟨count_cs_sendSeq hv a bs false, count_cs_sendSeq hv a bs true⟩,
    fun hv => sendSeq_twoWire hv a bs⟩

/-- Settles O41: no event but those of the pulse writes the reset line, and a BEGIN that completed has sent all of them. -/
theorem resetLineIsWrittenByBeginOnly : Obligations.ResetLineIsWrittenByBeginOnly := by
  intro i s t hs h
  refine ⟨?_, fun hi => exec_keeps_rst hi h⟩
  rintro vcc a rfl hwired hrun
  exact exec_begin_pulse_rst hs hwired h hrun

/-- Settles O48: FLUSH sends the framebuffer that CLEAR left, from a link that CLEAR left at rest. -/
theorem clearThenFlushSendsZeros : Obligations.ClearThenFlushSendsZeros := by
  intro s hinv hbus hp
  obtain ⟨⟨hl, hw, -⟩, -, -, ⟨hrest, -⟩, -⟩ := hinv
  obtain ⟨t, hflush, hlog⟩ := exec_flush_log (s := s.cleared.advance) hl (hrest hbus.2) hbus hp
  have hzeros : s.cleared.advance.fbBytes = List.replicate s.cfg.fbLen 0x00 := fbBytes_cleared hw
  rw [hzeros] at hlog
  exact ⟨t, execAll_two (exec_clear s) hflush, hlog⟩

/-- Settles O49: a Ready-only request only emits, and what a request emits is read from the registers it is to be fixed
by. -/
theorem bytesSentDependOnNoEarlierFeature : Obligations.BytesSentDependOnNoEarlierFeature := by
  refine ⟨fun j s t hj h => exec_readyOnly_frame hj h, ?_⟩
  intro i s s' t hd hcfg hphase hsupply haddr hfb hbus hbus' h
  exact exec_sends_the_same hcfg hsupply haddr hd hphase hfb hbus hbus' h

end Sys2Proof.Proofs

/-!
PROOFS. The statements of 60_exceptions.md: the transitions of PHASE, that no step faults, and that a run which only draws
comes to its end.
-/

namespace Sys2Proof.Machine

/-! ### PHASE (R191, R241) -/

/-- BEGIN starts in Uninitialized and ends in Ready, or hangs in Initializing (R268). -/
theorem exec_begin_phase {vcc : Supply} {rst : Bool} {a : DevAddr} {s t : State}
    (h : exec (.begin vcc rst a) s = .next t) :
    s.phase = .uninitialized ∧ t.phase = if t.stalled then .initializing else .ready := by
  rw [exec_begin] at h
  obtain ⟨hp, rfl⟩ := whenUninitialized_next h
  simp [hp, becomeReady_phase]

theorem exec_keeps_phase {i : Instr} {s t : State} (hi : ∀ vcc rst a, i ≠ .begin vcc rst a)
    (h : exec i s = .next t) : t.phase = s.phase := by
  obtain ⟨-, u, ⟨m, rfl, -, -⟩, rfl⟩ | ⟨-, -, rfl⟩ | ⟨vcc, rst, a, rfl, -, -⟩ := exec_next_cases h
  · rfl
  · simp
  · exact absurd rfl (hi vcc rst a)

/-! ### Everything a step can answer (R230, R235, R236) -/

theorem step_of_stalled {s : State} (h : s.stalled = true) : step s = .next s := by
  simp [step, h]

/-- A step stays where it is, refuses a reserved word, or is the decoded request. -/
theorem step_cases (s : State) :
    step s = .next s ∨ (∃ why, step s = .refused (.reservedRequest why)) ∨ ∃ i, step s = exec i s := by
  cases hs : s.stalled with
  | true => exact .inl (step_of_stalled hs)
  | false =>
    cases hw : fetch s with
    | none => exact .inl (step_of_no_request hw)
    | some w =>
      cases hd : decode w with
      | error why => exact .inr (.inl ⟨why, step_refuses hs hw hd⟩)
      | ok i => exact .inr (.inr ⟨i, step_eq_exec hs hw hd⟩)

/-! ### Runs that only draw (R242, R268, R272) -/

/-- In a legal configuration a drawing request completes, in every phase and on every bus. -/
theorem exec_draws_completes {s : State} {i : Instr} (hl : s.cfg.Legal) (hd : i.draws = true) :
    ∃ m, exec i s = .next (s.withFb m).advance := by
  cases h : exec i s with
  | fault f => exact absurd h (exec_ne_fault hl i f)
  | refused why => exact absurd h (exec_ne_refused_of_draws hd s why)
  | next t =>
    obtain ⟨m, rfl⟩ := exec_of_draws hd h
    exact ⟨m, rfl⟩

/-- A run goes on from the state its first step answers. -/
theorem run_succ {s t : State} (h : step s = .next t) (n : Nat) :
    Host.Core.run core (n + 1) s = Host.Core.run core n t := by
  have hstep : core.step s = .next t := h
  simp only [Host.Core.run, hstep]

/-- The requests from `pc` on only draw. -/
def State.OnlyDrawsLeft (s : State) : Prop :=
  ∀ k w, s.pc ≤ k → s.prog[k]? = some w → ∃ i, decode w = .ok i ∧ i.draws = true

theorem State.OnlyDrawsLeft.advance {s : State} (h : s.OnlyDrawsLeft) (m : Memory) :
    (s.withFb m).advance.OnlyDrawsLeft := fun k w hk hw => h k w (Nat.le_of_succ_le hk) hw

theorem step_of_onlyDrawsLeft {s : State} (hl : s.cfg.Legal) (hs : s.stalled = false) (hd : s.OnlyDrawsLeft)
    (hpc : s.pc < s.prog.length) : ∃ m, step s = .next (s.withFb m).advance := by
  have hw : fetch s = some s.prog[s.pc] := List.getElem?_eq_getElem hpc
  obtain ⟨i, hi, hdraws⟩ := hd s.pc _ le_rfl hw
  rw [step_eq_exec hs hw hi]
  exact exec_draws_completes hl hdraws

/-- As many steps as requests are left move `pc` to the end of the list, and change nothing else but the framebuffer. -/
theorem run_of_onlyDrawsLeft {n : Nat} {s : State} (hl : s.cfg.Legal) (hs : s.stalled = false) (hd : s.OnlyDrawsLeft)
    (hn : s.pc + n = s.prog.length) :
    ∃ m, Host.Core.run core n s = .next { s with fb := m, pc := s.prog.length } := by
  induction n generalizing s with
  | zero =>
    refine ⟨s.fb, ?_⟩
    rw [← hn]
    rfl
  | succ n ih =>
    obtain ⟨m, hstep⟩ := step_of_onlyDrawsLeft hl hs hd (by omega)
    rw [run_succ hstep]
    have hrest : (s.withFb m).advance.pc + n = s.prog.length := by
      rw [advance_pc, withFb_pc]
      omega
    exact ih (s := (s.withFb m).advance) hl hs (hd.advance m) hrest

end Sys2Proof.Machine

namespace Sys2Proof.Proofs

open Sys2Proof Sys2Proof.Machine

/-- Settles O13: BEGIN's guard, and its last write of PHASE, which a BEGIN that hangs does not reach; sending and drawing
write none. -/
theorem onlyBeginMovesThePhase : Obligations.OnlyBeginMovesThePhase := by
  intro i s t _ h
  refine ⟨?_, fun hi => exec_keeps_phase (fun vcc rst a hbegin => hi ⟨vcc, rst, a, hbegin⟩) h⟩
  rintro ⟨vcc, rst, a, rfl⟩
  obtain ⟨hstart, hend⟩ := exec_begin_phase h
  exact ⟨hstart, fun hrun => by simp [hend, hrun], fun hhang => by simp [hend, hhang]⟩

/-- Settles O20: a step that does not stay or refuse is a request, and no request faults in a legal configuration. -/
theorem noStepFaults : Obligations.NoStepFaults := by
  intro s f hl
  obtain hstay | ⟨why, hrefuse⟩ | ⟨i, hexec⟩ := step_cases s
  · rw [hstay]
    nofun
  · rw [hrefuse]
    nofun
  · rw [hexec]
    exact exec_ne_fault hl i f

/-- Settles O51, by induction on the requests left: each completes, and leaves only drawing requests. -/
theorem drawingProgramsRunToTheirEnd : Obligations.DrawingProgramsRunToTheirEnd := by
  intro s hl hs hpc hd
  obtain ⟨m, hrun⟩ := run_of_onlyDrawsLeft hl hs hd (Nat.add_sub_of_le hpc)
  exact ⟨_, hrun, ⟨rfl, hs⟩, rfl, rfl⟩

end Sys2Proof.Proofs

/-!
PROOFS. The statements of 70_reset_and_hazards.md: what a request does on a bus that stalls after `n` events, and that a
list which begins once, in order, runs to its end from every reset state.
-/

namespace Sys2Proof.Machine

/-! ### Drawing does not see the bus (R6, R268) -/

/-- The operation answers the same framebuffer or fault whatever the bus accepts. -/
def IgnoresBus (f : State → Except Fault State) : Prop :=
  ∀ (s : State) (n : Option Nat), f (s.withBus n) = (f s).map (State.withBus n)

theorem IgnoresBus.bind {f g : State → Except Fault State} (hf : IgnoresBus f) (hg : IgnoresBus g) :
    IgnoresBus fun s => f s >>= g := by
  intro s n
  simp only [hf s n]
  cases f s with
  | error e => rfl
  | ok u => exact hg u n

theorem IgnoresBus.ite {f g : State → Except Fault State} (hf : IgnoresBus f) (hg : IgnoresBus g) (p : Prop)
    [Decidable p] : IgnoresBus fun s => if p then f s else g s := by
  intro s n
  by_cases h : p
  · simp only [if_pos h]
    exact hf s n
  · simp only [if_neg h]
    exact hg s n

theorem ignoresBus_ok : IgnoresBus .ok := fun _ _ => rfl

theorem ignoresBus_memWrite (i : Int) (v : Byte) : IgnoresBus (memWrite i v) := by
  intro s n
  by_cases h : 0 ≤ i ∧ i < s.cfg.fbLen
  · rw [memWrite_eq h, memWrite_eq (s := s.withBus n) h]
    rfl
  · rw [memWrite_outside h, memWrite_outside (s := s.withBus n) h]
    rfl

theorem ignoresBus_apply (i : Int) (mask : Byte) (col : Colour) : IgnoresBus (apply i mask col) := by
  intro s n
  have hread : memRead i (s.withBus n) = memRead i s := rfl
  simp only [apply, hread]
  cases memRead i s with
  | error e => rfl
  | ok v => exact ignoresBus_memWrite i _ s n

theorem ignoresBus_applyWhole (i : Int) (col : Colour) : IgnoresBus (applyWhole i col) := by
  rw [funext (applyWhole_eq_apply i col)]
  exact ignoresBus_apply i 0xFF col

theorem ignoresBus_applyRow (mask : Byte) (col : Colour) (k : Nat) (i : Int) : IgnoresBus (applyRow mask col k i) := by
  induction k generalizing i with
  | zero => exact ignoresBus_ok
  | succ k ih => exact (ignoresBus_apply i mask col).bind (ih (i + 1))

theorem ignoresBus_applyColumn (col : Colour) (k : Nat) (i : Int) : IgnoresBus (applyColumn col k i) := by
  induction k generalizing i with
  | zero => exact ignoresBus_ok
  | succ k ih => exact (ignoresBus_applyWhole i col).bind fun s => ih (i + s.cfg.width) s

theorem ignoresBus_columnFromBandTop (col : Colour) (h : Nat) (i : Int) : IgnoresBus (columnFromBandTop col h i) :=
  (ignoresBus_applyColumn col (h / 8) i).bind fun s =>
    (ignoresBus_apply (i + (h / 8 : Nat) * s.cfg.width) (tailMask (h % 8)) col).ite ignoresBus_ok (h % 8 > 0) s

theorem ignoresBus_columnRun (col : Colour) (m h : Nat) (i : Int) : IgnoresBus (columnRun col m h i) :=
  (ignoresBus_columnFromBandTop col h i).ite
    ((ignoresBus_apply i (leadMask m h) col).bind fun s =>
      ignoresBus_ok.ite (ignoresBus_columnFromBandTop col (h - (8 - m)) (i + s.cfg.width)) (h < 8 - m) s)
    (m = 0)

theorem ignoresBus_hRun (xn yn w : Int) (col : Colour) : IgnoresBus (hRun xn yn w col) := fun s =>
  let x := (clip xn w s.cfg.width).1
  let k := (clip xn w s.cfg.width).2
  ignoresBus_ok.ite
    (ignoresBus_ok.ite (ignoresBus_applyRow (bitMask (pixelBit (x, yn))) col k.toNat (pixelIndex s.cfg (x, yn))) (k ≤ 0))
    (yn < 0 ∨ yn ≥ s.cfg.height) s

theorem ignoresBus_vRun (xn yn h : Int) (col : Colour) : IgnoresBus (vRun xn yn h col) := fun s =>
  let y := (clip yn h s.cfg.height).1
  let k := (clip yn h s.cfg.height).2
  ignoresBus_ok.ite
    (ignoresBus_ok.ite (ignoresBus_columnRun col (pixelBit (xn, y)) k.toNat (pixelIndex s.cfg (xn, y))) (k ≤ 0))
    (xn < 0 ∨ xn ≥ s.cfg.width) s

theorem ignoresBus_drawRun (run : NativeRun) (col : Colour) : IgnoresBus (drawRun run col) := by
  obtain ⟨kind, xn, yn, len⟩ := run
  cases kind with
  | horizontal => exact ignoresBus_hRun xn yn len col
  | vertical => exact ignoresBus_vRun xn yn len col

/-- What an operation that ignores the bus completes on one bus, it completes on every other. -/
theorem IgnoresBus.complete {f : State → Except Fault State} (hf : IgnoresBus f) {s t : State}
    (h : complete (f s) = .next t) (n : Option Nat) : complete (f (s.withBus n)) = .next (t.withBus n) := by
  obtain ⟨u, hu, rfl⟩ := complete_next h
  rw [hf, hu]
  rfl

/-- A drawing request does the same on every bus, and carries the bus along. -/
theorem exec_draws_withBus {i : Instr} (hd : i.draws = true) {s t : State} (h : exec i s = .next t) (n : Option Nat) :
    exec i (s.withBus n) = .next (t.withBus n) := by
  cases i with
  | setPixel r x y col =>
    by_cases hp : OnPanel s.cfg (rotMap s.cfg r x y)
    · rw [exec_setPixel_on hp] at h
      rw [exec_setPixel_on (s := s.withBus n) hp]
      exact (ignoresBus_apply _ _ col).complete h n
    · rw [exec_setPixel_off hp] at h
      rw [exec_setPixel_off (s := s.withBus n) hp, ← Host.Outcome.next.inj h]
      rfl
  | hline r x y len col => exact (ignoresBus_drawRun _ col).complete h n
  | vline r x y len col => exact (ignoresBus_drawRun _ col).complete h n
  | clear =>
    rw [← Host.Outcome.next.inj h]
    rfl
  | begin | invert | dim | scrollR | scrollL | scrollDR | scrollDL | stopScroll | flush => cases hd

/-! ### Sending on a bus that stalls after `n` events (R268) -/

theorem emit_of_never_stalls {s : State} (hs : s.stalled = false) (e : LinkEvent) :
    emit (s.withBus none) e = (s.record e).withBus none := by
  cases he : e.canStall <;> simp [emit, hs, he] <;> rfl

/-- On a bus with `n` events left an event hangs the machine, where it may stall and `n` is 0; otherwise it is recorded
as on a good bus, and counts if it may stall. -/
theorem emit_on_bounded_bus {s : State} {n : Nat} (hs : s.stalled = false) (hb : s.busAccepts = some n)
    (e : LinkEvent) :
    (n = 0 ∧ emit s e = s.stall) ∨
      ∃ k, n = k + [e].countP LinkEvent.canStall ∧ emit s e = (s.record e).withBus (some k) := by
  cases he : e.canStall with
  | false =>
    refine .inr ⟨n, by simp [he], ?_⟩
    simp only [emit, hs, he, ← hb]
    rfl
  | true =>
    cases n with
    | zero => exact .inl ⟨rfl, by simp [emit, hs, he, hb]⟩
    | succ k =>
      refine .inr ⟨k, by simp [he], ?_⟩
      simp only [emit, hs, he, hb]
      rfl

/-- `t` hangs where `u` has sent everything: since TRACE was `before`, exactly `n` events that may stall were sent, and
stay sent, and the next event of `u` was not. -/
structure CutShort (n : Nat) (before : List LinkEvent) (t u : State) : Prop where
  hangs : t.stalled = true
  bus : t.busAccepts = some 0
  sent : ∃ sent e rest, sent.countP LinkEvent.canStall = n ∧ t.trace = before ++ sent ∧ u.trace = t.trace ++ e :: rest

/-- On a bus with `n` events left a list of events is sent as on a good bus, or is cut short. -/
theorem emitAll_on_bounded_bus (es : List LinkEvent) {s : State} {n : Nat} (hs : s.stalled = false)
    (hb : s.busAccepts = some n) :
    (∃ k, emitAll es s = (emitAll es (s.withBus none)).withBus (some k)) ∨
      CutShort n s.trace (emitAll es s) (emitAll es (s.withBus none)) := by
  induction es generalizing s n with
  | nil => exact .inl ⟨n, by rw [← hb]; rfl⟩
  | cons e es ih =>
    obtain ⟨rfl, he⟩ | ⟨k, rfl, he⟩ := emit_on_bounded_bus hs hb e
    · right
      rw [emitAll_cons, he, emitAll_of_stalled _ _ rfl]
      refine ⟨rfl, hb, [], e, es, rfl, (List.append_nil _).symm, ?_⟩
      have hgood : (s.withBus none).BusNeverStalls := ⟨rfl, hs⟩
      exact trace_emitAll_of_never_stalls hgood (e :: es)
    · rw [emitAll_cons, emitAll_cons, he, emit_of_never_stalls hs]
      obtain hall | ⟨hhang, hbus, sent, e', rest, hcount, htrace, hrest⟩ :=
        ih (s := (s.record e).withBus (some k)) hs rfl
      · exact .inl hall
      · refine .inr ⟨hhang, hbus, e :: sent, e', rest, ?_, ?_, hrest⟩
        · rw [← List.singleton_append, List.countP_append, hcount, Nat.add_comm]
        · rw [htrace, withBus_trace, record_trace, List.append_assoc, List.singleton_append]

theorem emitAll_keeps_busNeverStalls {s : State} (hbus : s.BusNeverStalls) (es : List LinkEvent) :
    (emitAll es s).BusNeverStalls := by
  rw [emitAll_of_never_stalls _ _ hbus]
  exact hbus

/-- What ends a request that sends: it leaves a hanging machine, and what was sent, and does not look at the bus. -/
structure EndsSending (fin : State → State) : Prop where
  hanging : ∀ s : State, s.stalled = true → fin s = s
  withBus : ∀ (s : State) (n : Option Nat), fin (s.withBus n) = (fin s).withBus n
  trace : ∀ s : State, (fin s).trace = s.trace
  stalled : ∀ s : State, (fin s).stalled = s.stalled

theorem finish_endsSending : EndsSending State.finish where
  hanging := finish_of_stalled
  withBus s n := (apply_ite (State.withBus n) (s.stalled = true) s s.advance).symm
  trace := finish_trace
  stalled := finish_stalled

theorem becomeReady_endsSending : EndsSending State.becomeReady where
  hanging := becomeReady_of_stalled
  withBus s n := (apply_ite (State.withBus n) (s.stalled = true) s { s with phase := .ready }).symm
  trace := becomeReady_trace
  stalled := becomeReady_stalled

theorem EndsSending.comp {f g : State → State} (hf : EndsSending f) (hg : EndsSending g) :
    EndsSending fun s => f (g s) where
  hanging s hs := by rw [hg.hanging s hs, hf.hanging s hs]
  withBus s n := by rw [hg.withBus, hf.withBus]
  trace s := by rw [hf.trace, hg.trace]
  stalled s := by rw [hf.stalled, hg.stalled]

/-- `t` is what `u` is on a good bus, or hangs where `u` went on. -/
def AsOnGoodBusOrCutShort (n : Nat) (before : List LinkEvent) (t u : State) : Prop :=
  (u.stalled = false ∧ ∃ k, t = u.withBus (some k)) ∨ CutShort n before t u

/-- Sending a list of events and ending the request, on a bus with `n` events left. -/
theorem EndsSending.asOnGoodBusOrCutShort {fin : State → State} (hfin : EndsSending fin) (es : List LinkEvent)
    {s : State} {n : Nat} (hs : s.stalled = false) (hb : s.busAccepts = some n) :
    AsOnGoodBusOrCutShort n s.trace (fin (emitAll es s)) (fin (emitAll es (s.withBus none))) := by
  obtain ⟨k, hall⟩ | ⟨hhang, hbus, sent, e, rest, hcount, htrace, hrest⟩ := emitAll_on_bounded_bus es hs hb
  · refine .inl ⟨?_, k, by rw [hall, hfin.withBus]⟩
    have hgood : (s.withBus none).BusNeverStalls := ⟨rfl, hs⟩
    rw [hfin.stalled, (emitAll_keeps_busNeverStalls hgood es).2]
  · rw [hfin.hanging _ hhang]
    exact .inr ⟨hhang, hbus, sent, e, rest, hcount, htrace, by rw [hfin.trace, hrest]⟩

/-- A request on a bus with `n` events left completes as on a good bus, or is cut short. -/
theorem exec_on_bounded_bus {i : Instr} {s t : State} {n : Nat} (hs : s.stalled = false) (hb : s.busAccepts = some n)
    (h : exec i s = .next t) : ∃ u, exec i (s.withBus none) = .next u ∧ AsOnGoodBusOrCutShort n s.trace t u := by
  obtain ⟨hd, -⟩ | ⟨hr, hp, rfl⟩ | ⟨vcc, rst, a, rfl, hp, rfl⟩ := exec_next_cases h
  · obtain ⟨m, rfl⟩ := exec_of_draws hd h
    refine ⟨_, exec_draws_withBus hd h none, .inl ⟨hs, n, ?_⟩⟩
    rw [← hb]
    rfl
  · have hp' : (s.withBus none).phase = .ready := hp
    have hes : eventsOf i (s.withBus none) = eventsOf i s := eventsOf_congr rfl rfl rfl fun _ => rfl
    refine ⟨_, by rw [exec_readyOnly hr, whenReady_of_ready hp', hes], ?_⟩
    exact finish_endsSending.asOnGoodBusOrCutShort _ hs hb
  · have hp' : (s.withBus none).phase = .uninitialized := hp
    refine ⟨_, by rw [exec_begin, whenUninitialized_of_uninitialized hp'], ?_⟩
    exact (finish_endsSending.comp becomeReady_endsSending).asOnGoodBusOrCutShort _ (s := s.latch vcc a) hs hb

/-- Only a request that sends can hang. -/
theorem draws_eq_false_of_hangs {i : Instr} {s t : State} (hs : s.stalled = false) (h : exec i s = .next t)
    (ht : t.stalled = true) : i.draws = false := by
  refine Bool.eq_false_iff.2 fun hd => ?_
  obtain ⟨m, rfl⟩ := exec_of_draws hd h
  rw [advance_stalled, withFb_stalled, hs] at ht
  cases ht

/-! ### A list of requests that all complete (R272) -/

/-- On a bus that never stalls no request hangs. -/
theorem exec_keeps_busNeverStalls {i : Instr} {s t : State} (hbus : s.BusNeverStalls) (h : exec i s = .next t) :
    t.BusNeverStalls := by
  obtain ⟨-, u, ⟨m, rfl, -, -⟩, rfl⟩ | ⟨-, -, rfl⟩ | ⟨vcc, rst, a, -, -, rfl⟩ := exec_next_cases h
  · exact hbus
  · rw [State.BusNeverStalls, finish_busAccepts, finish_stalled]
    exact emitAll_keeps_busNeverStalls hbus _
  · rw [State.BusNeverStalls, finish_busAccepts, finish_stalled, becomeReady_busAccepts, becomeReady_stalled]
    exact emitAll_keeps_busNeverStalls (s := s.latch vcc a) hbus _

/-- Requests that all complete: the first does, and the others do after it. -/
theorem execAll_cons_next {i : Instr} {is : List Instr} {s t : State} (h : execAll (i :: is) s = .next t) :
    ∃ u, exec i s = .next u ∧ execAll is u = .next t := by
  cases hi : exec i s with
  | next u => exact ⟨u, rfl, by rw [← execAll_cons hi, h]⟩
  | fault f => simp [execAll, hi] at h
  | refused why => simp [execAll, hi] at h

theorem execAll_append {is : List Instr} {s t : State} (h : execAll is s = .next t) (js : List Instr) :
    execAll (is ++ js) s = execAll js t := by
  induction is generalizing s with
  | nil => rw [← Host.Outcome.next.inj h, List.nil_append]
  | cons i is ih =>
    obtain ⟨u, hi, h⟩ := execAll_cons_next h
    rw [List.cons_append, execAll_cons hi, ih h]

/-- What later requests go by is as it was: the configuration, PHASE, SUPPLY, ADDR, and a bus that never stalls. -/
structure SameControl (s t : State) : Prop where
  cfg : t.cfg = s.cfg
  phase : t.phase = s.phase
  supply : t.supply = s.supply
  addr : t.addr = s.addr
  bus : t.BusNeverStalls

theorem SameControl.trans {s t u : State} (h : SameControl s t) (g : SameControl t u) : SameControl s u :=
  ⟨g.cfg.trans h.cfg, g.phase.trans h.phase, g.supply.trans h.supply, g.addr.trans h.addr, g.bus⟩

/-- The request is meant for the phase, and is no BEGIN (R190, R242). -/
def AllowedIn (p : Phase) (i : Instr) : Prop := i.draws = true ∨ (i.readyOnly = true ∧ p = .ready)

theorem AllowedIn.ne_begin {p : Phase} {i : Instr} (h : AllowedIn p i) (vcc : Supply) (rst : Bool) (a : DevAddr) :
    i ≠ .begin vcc rst a := by
  rintro rfl
  obtain hd | ⟨hr, -⟩ := h
  · cases hd
  · cases hr

theorem AllowedIn.completes {s : State} {i : Instr} (hl : s.cfg.Legal) (h : AllowedIn s.phase i) :
    ∃ t, exec i s = .next t := by
  obtain hd | ⟨hr, hp⟩ := h
  · obtain ⟨m, hm⟩ := exec_draws_completes (s := s) hl hd
    exact ⟨_, hm⟩
  · exact ⟨_, by rw [exec_readyOnly hr, whenReady_of_ready hp]⟩

/-- Requests meant for the phase all complete, since none of them changes what the next goes by. -/
theorem execAll_of_allowed {is : List Instr} {s : State} (hl : s.cfg.Legal) (hbus : s.BusNeverStalls)
    (h : ∀ i ∈ is, AllowedIn s.phase i) : ∃ t, execAll is s = .next t ∧ SameControl s t := by
  induction is generalizing s with
  | nil => exact ⟨s, rfl, rfl, rfl, rfl, rfl, hbus⟩
  | cons i is ih =>
    obtain ⟨hi, his⟩ := List.forall_mem_cons.1 h
    obtain ⟨u, hu⟩ := hi.completes hl
    obtain ⟨hcfg, -⟩ := exec_keeps_cfg_prog hu
    obtain ⟨hsupply, haddr⟩ := exec_keeps_supply_addr hi.ne_begin hu
    have hphase := exec_keeps_phase hi.ne_begin hu
    have hsame : SameControl s u := ⟨hcfg, hphase, hsupply, haddr, exec_keeps_busNeverStalls hbus hu⟩
    obtain ⟨t, ht, hsame'⟩ := ih (hcfg ▸ hl) hsame.bus (hphase ▸ his)
    exact ⟨t, by rw [execAll_cons hu, ht], hsame.trans hsame'⟩

/-- BEGIN in Uninitialized, on a bus that never stalls. -/
theorem exec_begin_completes {s : State} (hbus : s.BusNeverStalls) (hp : s.phase = .uninitialized) (vcc : Supply)
    (rst : Bool) (a : DevAddr) :
    ∃ t, exec (.begin vcc rst a) s = .next t ∧ t.cfg = s.cfg ∧ t.BusNeverStalls ∧ t.phase = .ready ∧ t.supply = vcc ∧
      t.addr = a := by
  have h := exec_begin vcc rst a s
  rw [whenUninitialized_of_uninitialized hp] at h
  have hbus' := exec_keeps_busNeverStalls hbus h
  obtain ⟨-, hphase⟩ := exec_begin_phase h
  rw [if_neg (by rw [hbus'.2]; decide)] at hphase
  exact ⟨_, h, (exec_keeps_cfg_prog h).1, hbus', hphase, exec_begin_latches h⟩

/-- Requests that only draw, then one BEGIN, then requests but BEGIN, all complete (R190, R191, R262). -/
theorem execAll_begin_once {s : State} {before after : List Instr} (hl : s.cfg.Legal) (hbus : s.BusNeverStalls)
    (hp : s.phase = .uninitialized) (hbefore : ∀ i ∈ before, i.draws = true)
    (hafter : ∀ i ∈ after, i.draws = true ∨ i.readyOnly = true) (vcc : Supply) (rst : Bool) (a : DevAddr) :
    ∃ t, execAll (before ++ .begin vcc rst a :: after) s = .next t ∧ t.phase = .ready ∧ t.supply = vcc ∧ t.addr = a := by
  obtain ⟨u, hu, hsame⟩ := execAll_of_allowed (is := before) hl hbus fun i hi => .inl (hbefore i hi)
  obtain ⟨v, hv, hcfg, hbus', hready, hsupply, haddr⟩ :=
    exec_begin_completes hsame.bus (hsame.phase.trans hp) vcc rst a
  have hl' : v.cfg.Legal := by rwa [hcfg, hsame.cfg]
  obtain ⟨t, ht, hsame'⟩ :=
    execAll_of_allowed (is := after) hl' hbus' fun i hi => (hafter i hi).imp_right fun hr => ⟨hr, hready⟩
  refine ⟨t, ?_, hsame'.phase.trans hready, hsame'.supply.trans hsupply, hsame'.addr.trans haddr⟩
  rw [execAll_append hu, execAll_cons hv, ht]

/-! ### From a list of requests to a run of its words (R27, R272) -/

theorem fetch_of_drop {s : State} {w : Request} {ws : List Request} (h : s.prog.drop s.pc = w :: ws) :
    fetch s = some w := by
  rw [fetch, ← List.head?_drop, h, List.head?_cons]

/-- Where the list from `pc` on encodes requests that all complete, a run of as many steps executes them. -/
theorem run_of_execAll {is : List Instr} {s t : State} (hwf : ∀ i ∈ is, i.WellFormed) (hbus : s.BusNeverStalls)
    (hprog : s.prog.drop s.pc = is.map encode) (h : execAll is s = .next t) :
    Host.Core.run core is.length s = .next t ∧ t.prog = s.prog ∧ t.pc = s.pc + is.length ∧ t.BusNeverStalls := by
  induction is generalizing s with
  | nil =>
    obtain rfl := Host.Outcome.next.inj h
    exact ⟨rfl, rfl, rfl, hbus⟩
  | cons i is ih =>
    obtain ⟨hi, his⟩ := List.forall_mem_cons.1 hwf
    obtain ⟨u, hexec, h⟩ := execAll_cons_next h
    have hstep : step s = .next u := by
      rw [step_eq_exec hbus.2 (fetch_of_drop hprog) (Proofs.decodeOfEncodeIsTheRequest i hi), hexec]
    have hbus' := exec_keeps_busNeverStalls hbus hexec
    obtain ⟨-, hsame⟩ := exec_keeps_cfg_prog hexec
    have hpc : u.pc = s.pc + 1 := by simp [exec_pc hbus.2 hexec, hbus'.2]
    have hrest : u.prog.drop u.pc = is.map encode := by
      rw [hsame, hpc, ← List.drop_drop, hprog]
      rfl
    obtain ⟨hrun, hprog', hpc', hbus''⟩ := ih his hbus' hrest h
    refine ⟨(run_succ hstep _).trans hrun, hprog'.trans hsame, ?_, hbus''⟩
    rw [hpc', hpc, List.length_cons]
    omega

end Sys2Proof.Machine

namespace Sys2Proof.Proofs

open Sys2Proof Sys2Proof.Machine

/-- Settles O50: the request completes as on a good bus, or is cut short after the `n` events the bus accepts. -/
theorem stalledRequestKeepsWhatWasSent : Obligations.StalledRequestKeepsWhatWasSent := by
  intro i s t n hs hb h
  obtain ⟨u, hu, ⟨hrun, k, rfl⟩ | ⟨hhang, hbus, sent, e, rest, hcount, htrace, hrest⟩⟩ := exec_on_bounded_bus hs hb h
  · refine ⟨u, hu, List.prefix_rfl, fun _ => rfl, fun hhang => ?_⟩
    rw [withBus_stalled, hrun] at hhang
    cases hhang
  · have hpc : t.pc = s.pc := by rw [exec_pc hs h, if_pos hhang]
    have hfb : t.fb = s.fb := exec_keeps_fb (draws_eq_false_of_hangs hs h hhang) h
    have hlen : t.trace.length < u.trace.length := by simp [hrest]
    refine ⟨u, hu, ⟨_, hrest.symm⟩, fun hrun => ?_, fun _ =>
      ⟨hpc, hfb, hbus, hlen, ⟨sent, htrace, hcount⟩, ?_, step_of_stalled hhang⟩⟩
    · rw [hrun] at hhang
      cases hhang
    · rintro vcc rst a rfl
      obtain ⟨-, hphase⟩ := exec_begin_phase h
      rw [hphase, if_pos hhang]

/-- Settles O52: the requests all complete, one after another, and the run executes them from the first on. -/
theorem initialisedProgramsRunToTheirEnd : Obligations.InitialisedProgramsRunToTheirEnd := by
  intro s before after vcc rst a hreset hbus hbefore hafter hprog
  obtain ⟨hl, -, -, hp, -, -, hpc, -⟩ := hreset
  obtain ⟨t, ht, hend⟩ := execAll_begin_once hl hbus hp (fun i hi => (hbefore i hi).2) (fun i hi => (hafter i hi).2) vcc rst a
  have hwf : ∀ i ∈ before ++ .begin vcc rst a :: after, i.WellFormed :=
    List.forall_mem_append.2 ⟨fun i hi => (hbefore i hi).1, List.forall_mem_cons.2 ⟨rfl, fun i hi => (hafter i hi).1⟩⟩
  obtain ⟨hrun, hprog', hpc', hbus'⟩ := run_of_execAll hwf hbus (by rw [hpc, List.drop_zero, hprog]) ht
  have hlen : s.prog.length = (before ++ .begin vcc rst a :: after).length := by rw [hprog, List.length_map]
  refine ⟨t, by rw [hlen, hrun], ⟨?_, hbus'.2⟩, hend⟩
  rw [hpc', hpc, hprog', hlen, Nat.zero_add]

/-- Settles O8: a step looks at `stalled` before anything else. -/
theorem hangingMachineNeverMoves : Obligations.HangingMachineNeverMoves := by
  intro s hs
  exact step_of_stalled hs

end Sys2Proof.Proofs
